-- ==== Sys2Proof/Word.lean ====
section
/-! DEFINITION. The scalar domains and sequence shapes of the source's data model (10_state.md R10 to
R14) and the number of a slot (00_scope.md R6). -/

namespace Sys2Proof

/-- A Byte: "integer in [0,255]" (R10). -/
abbrev Byte := BitVec 8

/-- A Word: the 16-bit unit of a word array (R10); not the machine word of any processor (R9). -/
abbrev Word := BitVec 16

/-- A Limb: "32-bit unit"; held as 32 bits it meets the limb invariant by construction (R10, R13). -/
abbrev Limb := BitVec 32

/-- A superword: limbs, most-significant limb first (R12). It may be empty (D13). -/
abbrev Superword := List Limb

/-- A composite array: any finite sequence of superwords, ragged or not (R14). -/
abbrev Composite := List Superword

/-- The number of one of the `NSLOT = 16` slots (R6, R16). -/
abbrev SlotIx := Fin 16

end Sys2Proof
end

