-- ==== Sys2Proof/Config.lean ====
section
/-! DEFINITION. What one implementation fixes and the spec leaves open. -/

namespace Sys2Proof

/-- `SLOT_BYTES` (R6, R17, D4): the capacity of one slot in bytes; `none` is `unbounded`. The spec
leaves it OPEN ("a natural number or `unbounded`"), so it has no body: no proof can see its value and
a statement about it holds for every capacity.
DESIGN CHOICE, notes/assumptions/5.md (safe). -/
opaque Config.slotBytes : Option Nat

end Sys2Proof
end

