-- ==== Sys2Proof/Syntax.lean ====
section
/-! DEFINITION. The 22 commands as syntax (30_encoding.md R50 to R53), one constructor per row of
spec/opcode_table.json. Fields are named as in R50: `rd` destination slot, `ra` and `rb` source slots,
`simm` the immediate read as a signed integer (R52). -/

namespace Sys2Proof

inductive Instr where
  /-- opcode 0x10, form U, R72 -/
  | barr2warrL (rd ra : SlotIx)
  /-- opcode 0x11, form U, R73 -/
  | barr2warrB (rd ra : SlotIx)
  /-- opcode 0x12, form U, R74 -/
  | warr2barrL (rd ra : SlotIx)
  /-- opcode 0x13, form U, R75 -/
  | warr2barrB (rd ra : SlotIx)
  /-- opcode 0x14, form U, R76 -/
  | barr2dwarrL (rd ra : SlotIx)
  /-- opcode 0x15, form U, R77 -/
  | barr2dwarrB (rd ra : SlotIx)
  /-- opcode 0x16, form U, R78 -/
  | dwarr2barrL (rd ra : SlotIx)
  /-- opcode 0x17, form U, R79 -/
  | dwarr2barrB (rd ra : SlotIx)
  /-- opcode 0x20, form I, R93; `simm` is `limbByteSize` in bytes -/
  | barr2carrL (rd ra : SlotIx) (simm : Int)
  /-- opcode 0x21, form I, R94; `simm` is `limbByteSize` in bytes -/
  | barr2carrB (rd ra : SlotIx) (simm : Int)
  /-- opcode 0x22, form U, R95 -/
  | carr2barrL (rd ra : SlotIx)
  /-- opcode 0x23, form U, R96 -/
  | carr2barrB (rd ra : SlotIx)
  /-- opcode 0x24, form S, R100 -/
  | isConsistentCarr (ra : SlotIx)
  /-- opcode 0x30, form B, R112 -/
  | dwarrAnd (rd ra rb : SlotIx)
  /-- opcode 0x31, form B, R113 -/
  | dwarrOr (rd ra rb : SlotIx)
  /-- opcode 0x32, form B, R114 -/
  | dwarrXor (rd ra rb : SlotIx)
  /-- opcode 0x33, form U, R115 -/
  | dwarrNot (rd ra : SlotIx)
  /-- opcode 0x40, form I, R132; `simm` is the count `n` in bits -/
  | dwarrLShift (rd ra : SlotIx) (simm : Int)
  /-- opcode 0x41, form I, R133; `simm` is the count `n` in bits -/
  | dwarrRShiftZ (rd ra : SlotIx) (simm : Int)
  /-- opcode 0x42, form I, R134; `simm` is the count `n` in bits -/
  | dwarrRShiftS (rd ra : SlotIx) (simm : Int)
  /-- opcode 0x43, form I, R135; `simm` is the count `n` in bits -/
  | dwarrLRotate (rd ra : SlotIx) (simm : Int)
  /-- opcode 0x44, form I, R136; `simm` is the count `n` in bits -/
  | dwarrRRotate (rd ra : SlotIx) (simm : Int)
deriving DecidableEq, Repr

end Sys2Proof
end

