-- ==== Sys2Proof/WellFormed.lean ====
section
/-! DEFINITION. Which instructions a command word can hold. Slot numbers are in range by type; the one
check is the range of the immediate (30_encoding.md R52). -/

namespace Sys2Proof

/-- R52: "`simm` is in `[-2^31, 2^31 - 1]`". DESIGN CHOICE, notes/assumptions/6.md (safe). -/
def simmInRange (n : Int) : Bool := -2147483648 ≤ n && n ≤ 2147483647

/-- An instruction a 64-bit command word can hold: its immediate, if its form has one, is in range. -/
def Instr.wellFormed : Instr → Bool
  | .barr2warrL _ _ => true
  | .barr2warrB _ _ => true
  | .warr2barrL _ _ => true
  | .warr2barrB _ _ => true
  | .barr2dwarrL _ _ => true
  | .barr2dwarrB _ _ => true
  | .dwarr2barrL _ _ => true
  | .dwarr2barrB _ _ => true
  | .barr2carrL _ _ n => simmInRange n
  | .barr2carrB _ _ n => simmInRange n
  | .carr2barrL _ _ => true
  | .carr2barrB _ _ => true
  | .isConsistentCarr _ => true
  | .dwarrAnd _ _ _ => true
  | .dwarrOr _ _ _ => true
  | .dwarrXor _ _ _ => true
  | .dwarrNot _ _ => true
  | .dwarrLShift _ _ n => simmInRange n
  | .dwarrRShiftZ _ _ n => simmInRange n
  | .dwarrRShiftS _ _ n => simmInRange n
  | .dwarrLRotate _ _ n => simmInRange n
  | .dwarrRRotate _ _ n => simmInRange n

end Sys2Proof
end

