-- ==== Sys2Proof/Decode.lean ====
section
/-! DEFINITION. The command encoding (30_encoding.md R50 to R55): the fields of a command word, the four
forms and their masks, the opcode table, the decoder (total on all 2^64 words, rejecting by name) and
the encoder. -/

namespace Sys2Proof

/-! ### The fields of a command word (R50) -/

namespace Field

/-- Bits 63:32, the immediate. -/
def imm (c : BitVec 64) : BitVec 32 := c.extractLsb' 32 32
/-- Bits 31:24, the operation. -/
def opcode (c : BitVec 64) : BitVec 8 := c.extractLsb' 24 8
/-- Bits 23:20, the destination slot. -/
def rd (c : BitVec 64) : SlotIx := (c.extractLsb' 20 4).toFin
/-- Bits 19:16, the first source slot. -/
def ra (c : BitVec 64) : SlotIx := (c.extractLsb' 16 4).toFin
/-- Bits 15:12, the second source slot. -/
def rb (c : BitVec 64) : SlotIx := (c.extractLsb' 12 4).toFin
/-- The immediate read as a two's complement integer (R52). -/
def simm (c : BitVec 64) : Int := (imm c).toInt

/-- A command word from its fields, bits 63:32 first (R50); bits 11:0 are 0. -/
def ofFields (imm : BitVec 32) (opcode : BitVec 8) (rd ra rb : SlotIx) : BitVec 64 :=
  imm ++ opcode ++ BitVec.ofFin (w := 4) rd ++ BitVec.ofFin (w := 4) ra ++ BitVec.ofFin (w := 4) rb ++ 0#12

end Field

/-! ### Forms (R51) -/

/-- The operand forms of R51. -/
inductive Form where
  /-- uses `opcode`, `rd`, `ra` -/
  | U
  /-- uses `opcode`, `ra` -/
  | S
  /-- uses `opcode`, `rd`, `ra`, `rb` -/
  | B
  /-- uses `opcode`, `rd`, `ra`, `imm` -/
  | I
deriving DecidableEq, Repr

/-- R51's masks: a 1 at every bit whose value is fixed, the opcode and the must-be-zero fields. -/
def Form.mask : Form → BitVec 64
  | .U => 0xFFFFFFFFFF00FFFF#64
  | .S => 0xFFFFFFFFFFF0FFFF#64
  | .B => 0xFFFFFFFFFF000FFF#64
  | .I => 0x00000000FF00FFFF#64

/-! ### The opcode map (R53) -/

/-- One row of R53: the opcode, the form, and the command it names, given its fields. -/
structure OpRow where
  opcode : BitVec 8
  form : Form
  make : (rd ra rb : SlotIx) → (simm : Int) → Instr

/-- The word R51 compares with: `match = opcode << 24`. -/
def OpRow.matchWord (r : OpRow) : BitVec 64 := r.opcode.setWidth 64 <<< 24

/-- Endian View Converter, opcodes 0x1_. -/
def evcRows : List OpRow :=
  [ ⟨0x10, .U, fun rd ra _ _ => .barr2warrL rd ra⟩,
    ⟨0x11, .U, fun rd ra _ _ => .barr2warrB rd ra⟩,
    ⟨0x12, .U, fun rd ra _ _ => .warr2barrL rd ra⟩,
    ⟨0x13, .U, fun rd ra _ _ => .warr2barrB rd ra⟩,
    ⟨0x14, .U, fun rd ra _ _ => .barr2dwarrL rd ra⟩,
    ⟨0x15, .U, fun rd ra _ _ => .barr2dwarrB rd ra⟩,
    ⟨0x16, .U, fun rd ra _ _ => .dwarr2barrL rd ra⟩,
    ⟨0x17, .U, fun rd ra _ _ => .dwarr2barrB rd ra⟩ ]

/-- Composite Builder, opcodes 0x2_. -/
def cbRows : List OpRow :=
  [ ⟨0x20, .I, fun rd ra _ n => .barr2carrL rd ra n⟩,
    ⟨0x21, .I, fun rd ra _ n => .barr2carrB rd ra n⟩,
    ⟨0x22, .U, fun rd ra _ _ => .carr2barrL rd ra⟩,
    ⟨0x23, .U, fun rd ra _ _ => .carr2barrB rd ra⟩,
    ⟨0x24, .S, fun _ ra _ _ => .isConsistentCarr ra⟩ ]

/-- Bitwise Logic Unit, opcodes 0x3_. -/
def bluRows : List OpRow :=
  [ ⟨0x30, .B, fun rd ra rb _ => .dwarrAnd rd ra rb⟩,
    ⟨0x31, .B, fun rd ra rb _ => .dwarrOr rd ra rb⟩,
    ⟨0x32, .B, fun rd ra rb _ => .dwarrXor rd ra rb⟩,
    ⟨0x33, .U, fun rd ra _ _ => .dwarrNot rd ra⟩ ]

/-- Shift/Rotate Engine, opcodes 0x4_. -/
def sreRows : List OpRow :=
  [ ⟨0x40, .I, fun rd ra _ n => .dwarrLShift rd ra n⟩,
    ⟨0x41, .I, fun rd ra _ n => .dwarrRShiftZ rd ra n⟩,
    ⟨0x42, .I, fun rd ra _ n => .dwarrRShiftS rd ra n⟩,
    ⟨0x43, .I, fun rd ra _ n => .dwarrLRotate rd ra n⟩,
    ⟨0x44, .I, fun rd ra _ n => .dwarrRRotate rd ra n⟩ ]

/-- The 22 rows of R53. -/
def opRows : List OpRow := evcRows ++ cbRows ++ bluRows ++ sreRows

/-! ### The decoder (R54) -/

/-- Why a word is an illegal command (R55). -/
inductive IllegalWord where
  /-- bits 31:24 are no opcode of R53 -/
  | unknownOpcode
  /-- a field its form does not use is not 0 -/
  | nonZeroField
deriving DecidableEq, Repr

/-- `Decode(c)` of R54: look up `c[31:24]`, then compare under the form's mask. -/
def decode (c : BitVec 64) : Except IllegalWord Instr :=
  match opRows.find? (fun r => r.opcode == Field.opcode c) with
  | none => .error .unknownOpcode
  | some r =>
    if c &&& r.form.mask = r.matchWord then
      .ok (r.make (Field.rd c) (Field.ra c) (Field.rb c) (Field.simm c))
    else
      .error .nonZeroField

/-! ### The encoder -/

/-- A word of form `U`. -/
def encodeU (opcode : BitVec 8) (rd ra : SlotIx) : BitVec 64 := Field.ofFields 0 opcode rd ra 0
/-- A word of form `S`. -/
def encodeS (opcode : BitVec 8) (ra : SlotIx) : BitVec 64 := Field.ofFields 0 opcode 0 ra 0
/-- A word of form `B`. -/
def encodeB (opcode : BitVec 8) (rd ra rb : SlotIx) : BitVec 64 := Field.ofFields 0 opcode rd ra rb
/-- A word of form `I`; the immediate is its 32-bit two's complement (R52). -/
def encodeI (opcode : BitVec 8) (rd ra : SlotIx) (simm : Int) : BitVec 64 :=
  Field.ofFields (BitVec.ofInt 32 simm) opcode rd ra 0

/-- The command word of an instruction, by the tables of R51 and R53. -/
def encode : Instr → BitVec 64
  | .barr2warrL rd ra => encodeU 0x10 rd ra
  | .barr2warrB rd ra => encodeU 0x11 rd ra
  | .warr2barrL rd ra => encodeU 0x12 rd ra
  | .warr2barrB rd ra => encodeU 0x13 rd ra
  | .barr2dwarrL rd ra => encodeU 0x14 rd ra
  | .barr2dwarrB rd ra => encodeU 0x15 rd ra
  | .dwarr2barrL rd ra => encodeU 0x16 rd ra
  | .dwarr2barrB rd ra => encodeU 0x17 rd ra
  | .barr2carrL rd ra n => encodeI 0x20 rd ra n
  | .barr2carrB rd ra n => encodeI 0x21 rd ra n
  | .carr2barrL rd ra => encodeU 0x22 rd ra
  | .carr2barrB rd ra => encodeU 0x23 rd ra
  | .isConsistentCarr ra => encodeS 0x24 ra
  | .dwarrAnd rd ra rb => encodeB 0x30 rd ra rb
  | .dwarrOr rd ra rb => encodeB 0x31 rd ra rb
  | .dwarrXor rd ra rb => encodeB 0x32 rd ra rb
  | .dwarrNot rd ra => encodeU 0x33 rd ra
  | .dwarrLShift rd ra n => encodeI 0x40 rd ra n
  | .dwarrRShiftZ rd ra n => encodeI 0x41 rd ra n
  | .dwarrRShiftS rd ra n => encodeI 0x42 rd ra n
  | .dwarrLRotate rd ra n => encodeI 0x43 rd ra n
  | .dwarrRRotate rd ra n => encodeI 0x44 rd ra n

/-! ### The host's two views of a table word -/

/-- The command word whose low `nbits` bits are those of `w`, every bit above them 0. -/
def tableWord (nbits w : Nat) : BitVec 64 := BitVec.ofNat 64 (w % 2 ^ nbits)

/-- What the decoder reads from a word of the opcode table: bit 0 of `w` is bit 0 of the command word.
A word of more than 64 bits is no command (R50). DESIGN CHOICE, notes/assumptions/13.md (safe). -/
def decodeTableWord (nbits w : Nat) : Option Instr :=
  if nbits ≤ 64 then (decode (tableWord nbits w)).toOption else none

end Sys2Proof
end

