-- ==== Sys2Proof/Machine/State.lean ====
section
/-! DEFINITION. The state of the machine as plain data (10_state.md R16 to R25), the host's transactions
and replies (20_memory.md R38 to R42), the reasons a step can stop, and the state after reset. -/

namespace Sys2Proof.Machine

/-! ### Tagged values (R16) -/

/-- The shape tags of R16. -/
inductive Tag where
  | U | BA | WA | DA | CA
deriving DecidableEq, Repr

/-- What one slot holds: one tagged value (R16). -/
inductive Value where
  /-- tag `U`: nothing (unset) -/
  | u
  /-- tag `BA`: a byte array, index order = memory order (R11) -/
  | ba (b : List Byte)
  /-- tag `WA`: a word array (R11) -/
  | wa (w : List Word)
  /-- tag `DA`: a limb array, that is a superword, most-significant limb first (R12) -/
  | da (d : Superword)
  /-- tag `CA`: a composite array, ragged or not (R14) -/
  | ca (c : Composite)
deriving DecidableEq, Repr

/-- What `HWRITE` can carry: "a tagged value of shape `BA`, `WA`, `DA` or `CA` (never `U`)", its
elements in range by type (R38). DEDUCED, notes/assumptions/15.md (safe). -/
inductive HostValue where
  | ba (b : List Byte)
  | wa (w : List Word)
  | da (d : Superword)
  | ca (c : Composite)
deriving DecidableEq, Repr

/-! ### The host port (R38 to R41, R185) -/

/-- The five host transactions. -/
inductive Transaction where
  /-- `HWRITE(i, v)`, R38 -/
  | hwrite (i : SlotIx) (v : HostValue)
  /-- `HREAD(i)`, R39 -/
  | hread (i : SlotIx)
  /-- `HSTATUS()`, R40 -/
  | hstatus
  /-- `HCMD(c)`, R41 -/
  | hcmd (c : BitVec 64)
  /-- `HRESET()`, R185 -/
  | hreset
deriving DecidableEq, Repr

/-- What a transaction replies. `HRESET` "replies nothing" (R185) and so has no constructor. -/
inductive Reply where
  /-- `HWRITE` wrote the slot (R38) -/
  | accepted
  /-- `HWRITE` of a value that does not fit (R38) -/
  | refused
  /-- the slot `HREAD` read (R39) -/
  | value (v : Value)
  /-- the 32 bits of `STATUS`: the reply of `HSTATUS` (R40) and of `HCMD` (R41) -/
  | status (w : BitVec 32)
deriving DecidableEq, Repr

/-! ### Errors as the commands see them (R160, R63) -/

/-- The six error kinds (R160). -/
inductive ErrorKind where
  | typeMismatch | lengthMismatch | sizeConstraint | countError | consistencyError | illegalCommand
deriving DecidableEq, Repr

/-- The unit that raises an error; `shell` is "none or shell" (R18, R63). -/
inductive Component where
  | shell | evc | cb | blu | sre
deriving DecidableEq, Repr

/-- The three ways a unit rule ends (R57). -/
inductive Ending where
  /-- `raise K` -/
  | raise (k : ErrorKind)
  /-- `V[rd] <- v` -/
  | write (rd : SlotIx) (v : Value)
  /-- `STATUS.T <- t` -/
  | setT (t : Bool)
deriving DecidableEq, Repr

/-! ### The machine -/

/-- All the state there is (R24): the slot file and `STATUS`. `pending` and `replies` are the model's
own: the host's stream of transactions, in issue order, and the replies given so far (R42, R192;
notes/assumptions/2.md and 3.md). -/
structure State where
  /-- `V[0]` to `V[15]` (R16) -/
  slots : Vector Value 16
  /-- `STATUS`, 32 bits (R18); its fields are in Machine/Flags.lean -/
  status : BitVec 32
  /-- the transactions the host has issued and the engine has not served, oldest first -/
  pending : List Transaction
  /-- the replies the host has received, oldest first -/
  replies : List Reply
deriving DecidableEq, Repr

/-- What stops the machine with a fault: nothing the spec describes does. An error of a command is a
next state (R170), every word either is a command or raises IllegalCommand (R55), and the engine "has no
halted, waiting or faulted state of its own" (R192). It has no constructor, so nobody raises one and no
step can fault. DEDUCED, notes/assumptions/10.md: unsafe for a device that could stop, which the spec rules
out. -/
inductive Fault where
deriving DecidableEq, Repr

/-- What the model declines to give a meaning. -/
inductive Refusal where
  /-- raised by `exec`'s arm of an instruction that has no meaning yet, and by nothing else; safe: the
  machine stops where the hardware goes on. No arm of this model raises it. -/
  | notModelled (mnemonic : String)
deriving DecidableEq, Repr

/-- The state right after reset (R24, R185): every slot unset, `STATUS` zero. The host has issued
nothing and received nothing (DESIGN CHOICE, notes/assumptions/2.md and 3.md, unsafe). -/
def State.reset : State where
  slots := Vector.replicate 16 .u
  status := 0
  pending := []
  replies := []

end Sys2Proof.Machine
end

