-- ==== Sys2Proof/Machine/Flags.lean ====
section
/-! DEFINITION. `STATUS`, the only control and status register (10_state.md R18, R19): its fields, read
and written in one place. There is no other flag (R20, R22). -/

namespace Sys2Proof.Machine

/-! ### The codes of R18 -/

/-- `code(K)`: the value of `STATUS.KIND` for a kind (R18, R160). -/
def ErrorKind.code : ErrorKind → BitVec 4
  | .typeMismatch => 1
  | .lengthMismatch => 2
  | .sizeConstraint => 3
  | .countError => 4
  | .consistencyError => 5
  | .illegalCommand => 6

/-- The value of `STATUS.COMP` for a unit (R18). -/
def Component.code : Component → BitVec 4
  | .shell => 0
  | .evc => 1
  | .cb => 2
  | .blu => 3
  | .sre => 4

/-! ### The fields of R18 -/

namespace Status

/-- Bits 3:0. -/
def kind (w : BitVec 32) : BitVec 4 := w.extractLsb' 0 4
/-- Bits 7:4. -/
def comp (w : BitVec 32) : BitVec 4 := w.extractLsb' 4 4
/-- Bit 8. -/
def flagT (w : BitVec 32) : Bool := w.getLsbD 8
/-- Bits 31:9, which have no field. -/
def rest (w : BitVec 32) : BitVec 23 := w.extractLsb' 9 23

/-- `STATUS.KIND <- k; STATUS.COMP <- c`; bits 31:8 keep their values. -/
def setOutcome (k c : BitVec 4) (w : BitVec 32) : BitVec 32 := w.extractLsb' 8 24 ++ c ++ k

/-- `STATUS.T <- t`; every other bit keeps its value. -/
def setT (t : Bool) (w : BitVec 32) : BitVec 32 :=
  w.extractLsb' 9 23 ++ BitVec.ofBool t ++ w.extractLsb' 0 8

/-- `STATUS` as the host reads it: bits 31:9 "read as 0" (R18), whatever the 32 bits hold there. DESIGN CHOICE,
notes/assumptions/8.md (safe). -/
def read (w : BitVec 32) : BitVec 32 := 0#23 ++ w.extractLsb' 0 9

end Status

/-- `STATUS.KIND`. -/
def State.kind (s : State) : BitVec 4 := Status.kind s.status
/-- `STATUS.COMP`. -/
def State.comp (s : State) : BitVec 4 := Status.comp s.status
/-- `STATUS.T`. -/
def State.flagT (s : State) : Bool := Status.flagT s.status
/-- `STATUS[31:9]`. -/
def State.statusRest (s : State) : BitVec 23 := Status.rest s.status
/-- The 32-bit value a reply carries (R40, R41). -/
def State.statusWord (s : State) : BitVec 32 := Status.read s.status

/-- Write `KIND` and `COMP`. -/
def State.setOutcome (k c : BitVec 4) (s : State) : State :=
  { s with status := Status.setOutcome k c s.status }

/-- Write `T`. -/
def State.setT (t : Bool) (s : State) : State := { s with status := Status.setT t s.status }

end Sys2Proof.Machine
end

