-- ==== Sys2Proof/Machine/Ops.lean ====
section
/-! DEFINITION. The operations every command shares: reading and writing a slot (10_state.md R16),
the size of a value and whether it fits (R17), raising an error (60_exceptions.md R170), and the frame
around a unit rule (30_encoding.md R57). There is no return from an error (R172). -/

namespace Sys2Proof.Machine

/-! ### The slot file -/

/-- `V[i]`. -/
def State.slot (s : State) (i : SlotIx) : Value := s.slots[i]

/-- `V[i] <- v`: tag and contents replaced whole (R58). -/
def State.setSlot (i : SlotIx) (v : Value) (s : State) : State :=
  { s with slots := s.slots.set i v }

/-- `tag(v)` of R8. -/
def Value.tag : Value → Tag
  | .u => .U
  | .ba _ => .BA
  | .wa _ => .WA
  | .da _ => .DA
  | .ca _ => .CA

/-- The slot content an `HWRITE` puts down. -/
def HostValue.toValue : HostValue → Value
  | .ba b => .ba b
  | .wa w => .wa w
  | .da d => .da d
  | .ca c => .ca c

/-- `size(v)` of R17, in bytes. -/
def Value.size : Value → Nat
  | .u => 0
  | .ba b => b.length
  | .wa w => 2 * w.length
  | .da d => 4 * d.length
  | .ca c => (c.map fun s => 4 * s.length).sum

/-- R17: a value fits a slot of `cap` bytes, `none` being `unbounded`. A composite is also bounded in its
number of superwords. -/
def Value.fits (cap : Option Nat) (v : Value) : Bool :=
  match cap with
  | none => true
  | some n =>
    decide (v.size ≤ n) &&
      match v with
      | .ca c => decide (c.length ≤ n / 4)
      | .u | .ba _ | .wa _ | .da _ => true

/-! ### Errors and the frame of a command -/

/-- R170, the whole of "trap entry": `STATUS.KIND` and `STATUS.COMP` are written; no slot and not
`STATUS.T`. -/
def State.raiseError (k : ErrorKind) (c : Component) (s : State) : State :=
  s.setOutcome k.code c.code

/-- A command succeeded: `KIND` and `COMP` become 0 (R57, R170). -/
def State.succeed (s : State) : State := s.setOutcome 0 0

/-- What the ending of a unit rule does to the state (R57). -/
def State.conclude (c : Component) (e : Ending) (s : State) : State :=
  match e with
  | .raise k => s.raiseError k c
  | .write rd v => (s.setSlot rd v).succeed
  | .setT t => (s.setT t).succeed

/-- The end of every meaning: a command of unit `c` whose rule ended in `e` always completes (R41). -/
def finish (c : Component) (e : Ending) (s : State) : Host.Outcome State Fault Refusal :=
  .next (s.conclude c e)

end Sys2Proof.Machine
end

