-- ==== Sys2Proof/Machine/Operands.lean ====
section
/-! DEFINITION. The operand checks of the unit rules, made once per command and in the order of
60_exceptions.md R169: the tag of a source slot (R161), then the size (R163), the length (R162), the
count (R164) or the limb counts (R165). Each check raises its kind or hands what it checked on. -/

namespace Sys2Proof.Machine

/-- The source slot must hold a `BA`. -/
def withBA (v : Value) (k : List Byte → Ending) : Ending :=
  match v with
  | .ba b => k b
  | .u | .wa _ | .da _ | .ca _ => .raise .typeMismatch

/-- The source slot must hold a `WA`. -/
def withWA (v : Value) (k : List Word → Ending) : Ending :=
  match v with
  | .wa w => k w
  | .u | .ba _ | .da _ | .ca _ => .raise .typeMismatch

/-- The source slot must hold a `DA`. -/
def withDA (v : Value) (k : Superword → Ending) : Ending :=
  match v with
  | .da d => k d
  | .u | .ba _ | .wa _ | .ca _ => .raise .typeMismatch

/-- The source slot must hold a `CA`. -/
def withCA (v : Value) (k : Composite → Ending) : Ending :=
  match v with
  | .ca c => k c
  | .u | .ba _ | .wa _ | .da _ => .raise .typeMismatch

/-- A byte array's length must be a multiple of the unit size (R71, R92). -/
def checkLength (unit : Nat) (b : List Byte) (k : Ending) : Ending :=
  if b.length % unit = 0 then k else .raise .lengthMismatch

/-- `limbByteSize` must be a positive multiple of 4 (R92); it is then a plain number of bytes. -/
def checkSize (simm : Int) (k : Nat → Ending) : Ending :=
  if simm ≤ 0 ∨ simm % 4 ≠ 0 then .raise .sizeConstraint else k simm.toNat

/-- A shift count must not be negative (R137); it is then a plain number of bits. -/
def checkCount (simm : Int) (k : Nat → Ending) : Ending :=
  if simm < 0 then .raise .countError else k simm.toNat

/-- Two superwords must have equal limb count (R111). -/
def checkEqualLimbs (a b : Superword) (k : Ending) : Ending :=
  if a.length = b.length then k else .raise .consistencyError

end Sys2Proof.Machine
end

