-- ==== Sys2Proof/Machine/Blu.lean ====
section
/-! DEFINITION. The Bitwise Logic Unit (43_bitwise_logic.md): limb-wise functions and the meanings of its
four commands, R112 to R115. The `mask32` of the rules changes nothing on 32-bit limbs (R13). -/

namespace Sys2Proof.Machine

namespace F

/-- Lane `i` is `a[i] & b[i]`. -/
def dwarrAnd (a b : Superword) : Superword := List.zipWith (· &&& ·) a b
/-- Lane `i` is `a[i] | b[i]`. -/
def dwarrOr (a b : Superword) : Superword := List.zipWith (· ||| ·) a b
/-- Lane `i` is `a[i] ^ b[i]`. -/
def dwarrXor (a b : Superword) : Superword := List.zipWith (· ^^^ ·) a b
/-- Lane `i` is the one's complement of `a[i]`. -/
def dwarrNot (a : Superword) : Superword := a.map (~~~ ·)

end F

/-- The binary form: both slots must hold a `DA`, then the limb counts must agree (R111). The first
operand's tag is checked first, which cannot be seen (R169): DEDUCED, notes/assumptions/16.md (safe). -/
def logicEnding (f : Superword → Superword → Superword) (rd : SlotIx) (va vb : Value) : Ending :=
  withDA va fun a => withDA vb fun b => checkEqualLimbs a b (.write rd (.da (f a b)))

/-- R112. -/
def execDwarrAnd (rd ra rb : SlotIx) (s : State) : Host.Outcome State Fault Refusal :=
  finish .blu (logicEnding F.dwarrAnd rd (s.slot ra) (s.slot rb)) s

/-- R113. -/
def execDwarrOr (rd ra rb : SlotIx) (s : State) : Host.Outcome State Fault Refusal :=
  finish .blu (logicEnding F.dwarrOr rd (s.slot ra) (s.slot rb)) s

/-- R114. -/
def execDwarrXor (rd ra rb : SlotIx) (s : State) : Host.Outcome State Fault Refusal :=
  finish .blu (logicEnding F.dwarrXor rd (s.slot ra) (s.slot rb)) s

/-- R115. -/
def execDwarrNot (rd ra : SlotIx) (s : State) : Host.Outcome State Fault Refusal :=
  finish .blu (withDA (s.slot ra) fun a => .write rd (.da (F.dwarrNot a))) s

end Sys2Proof.Machine
end

