-- ==== Sys2Proof/Machine/Evc.lean ====
section
/-! DEFINITION. The Endian View Converter (41_endian_view_converter.md): the pure functions of R70 and
the meanings of its eight commands, R72 to R79. -/

namespace Sys2Proof.Machine

/-! ### Units from bytes and bytes from units (R70) -/

/-- A word whose most significant byte is `hi`. -/
def wordOfBytes (hi lo : Byte) : Word := hi ++ lo

/-- A limb from its four bytes, the most significant first. -/
def limbOfBytes (b3 b2 b1 b0 : Byte) : Limb := b3 ++ b2 ++ b1 ++ b0

/-- Byte `i` of a word, byte 0 the least significant. -/
def wordByte (w : Word) (i : Nat) : Byte := w.extractLsb' (8 * i) 8

/-- Byte `i` of a limb, byte 0 the least significant. -/
def limbByte (x : Limb) (i : Nat) : Byte := x.extractLsb' (8 * i) 8

namespace F

/-- Word `i` is `b[2i] | b[2i+1] << 8`. -/
def barr2warrL : List Byte → List Word
  | b0 :: b1 :: rest => wordOfBytes b1 b0 :: barr2warrL rest
  | [_] => []
  | [] => []

/-- Word `i` is `b[2i] << 8 | b[2i+1]`. -/
def barr2warrB : List Byte → List Word
  | b0 :: b1 :: rest => wordOfBytes b0 b1 :: barr2warrB rest
  | [_] => []
  | [] => []

/-- Limb `i` is `b[4i] | b[4i+1] << 8 | b[4i+2] << 16 | b[4i+3] << 24`. -/
def barr2dwarrL : List Byte → List Limb
  | b0 :: b1 :: b2 :: b3 :: rest => limbOfBytes b3 b2 b1 b0 :: barr2dwarrL rest
  | [_, _, _] => []
  | [_, _] => []
  | [_] => []
  | [] => []

/-- Limb `i` is `b[4i] << 24 | b[4i+1] << 16 | b[4i+2] << 8 | b[4i+3]`: the "big-endian limb decoder". -/
def barr2dwarrB : List Byte → List Limb
  | b0 :: b1 :: b2 :: b3 :: rest => limbOfBytes b0 b1 b2 b3 :: barr2dwarrB rest
  | [_, _, _] => []
  | [_, _] => []
  | [_] => []
  | [] => []

/-- Bytes `2i`, `2i+1` are `w[i] & 0xFF`, `w[i] >> 8`. -/
def warr2barrL (w : List Word) : List Byte := w.flatMap fun x => [wordByte x 0, wordByte x 1]

/-- Bytes `2i`, `2i+1` are `w[i] >> 8`, `w[i] & 0xFF`. -/
def warr2barrB (w : List Word) : List Byte := w.flatMap fun x => [wordByte x 1, wordByte x 0]

/-- Bytes `4i` to `4i+3` are those of `d[i]`, the least significant first. -/
def dwarr2barrL (d : List Limb) : List Byte :=
  d.flatMap fun x => [limbByte x 0, limbByte x 1, limbByte x 2, limbByte x 3]

/-- Bytes `4i` to `4i+3` are those of `d[i]`, the most significant first: the "big-endian limb-to-byte
routine". -/
def dwarr2barrB (d : List Limb) : List Byte :=
  d.flatMap fun x => [limbByte x 3, limbByte x 2, limbByte x 1, limbByte x 0]

end F

/-! ### The commands -/

/-- R72. -/
def execBarr2warrL (rd ra : SlotIx) (s : State) : Host.Outcome State Fault Refusal :=
  finish .evc (withBA (s.slot ra) fun a => checkLength 2 a (.write rd (.wa (F.barr2warrL a)))) s

/-- R73. -/
def execBarr2warrB (rd ra : SlotIx) (s : State) : Host.Outcome State Fault Refusal :=
  finish .evc (withBA (s.slot ra) fun a => checkLength 2 a (.write rd (.wa (F.barr2warrB a)))) s

/-- R74. -/
def execWarr2barrL (rd ra : SlotIx) (s : State) : Host.Outcome State Fault Refusal :=
  finish .evc (withWA (s.slot ra) fun a => .write rd (.ba (F.warr2barrL a))) s

/-- R75. -/
def execWarr2barrB (rd ra : SlotIx) (s : State) : Host.Outcome State Fault Refusal :=
  finish .evc (withWA (s.slot ra) fun a => .write rd (.ba (F.warr2barrB a))) s

/-- R76. -/
def execBarr2dwarrL (rd ra : SlotIx) (s : State) : Host.Outcome State Fault Refusal :=
  finish .evc (withBA (s.slot ra) fun a => checkLength 4 a (.write rd (.da (F.barr2dwarrL a)))) s

/-- R77. -/
def execBarr2dwarrB (rd ra : SlotIx) (s : State) : Host.Outcome State Fault Refusal :=
  finish .evc (withBA (s.slot ra) fun a => checkLength 4 a (.write rd (.da (F.barr2dwarrB a)))) s

/-- R78. -/
def execDwarr2barrL (rd ra : SlotIx) (s : State) : Host.Outcome State Fault Refusal :=
  finish .evc (withDA (s.slot ra) fun a => .write rd (.ba (F.dwarr2barrL a))) s

/-- R79. -/
def execDwarr2barrB (rd ra : SlotIx) (s : State) : Host.Outcome State Fault Refusal :=
  finish .evc (withDA (s.slot ra) fun a => .write rd (.ba (F.dwarr2barrB a))) s

end Sys2Proof.Machine
end

