-- ==== Sys2Proof/Machine/Cb.lean ====
section
/-! DEFINITION. The Composite Builder (42_composite_builder.md): chunks, the `L` mechanism of R91, and
the meanings of its five commands, R93 to R96 and R100. -/

namespace Sys2Proof.Machine

namespace F

/-- Chunk `k` is `b[k*S .. k*S+S-1]`, for `k` in `0..len(b)/S-1`. -/
def chunks (S : Nat) (b : List Byte) : List (List Byte) :=
  (List.range (b.length / S)).map fun k => (b.drop (k * S)).take S

/-- `B`: "each chunk decodes directly via the big-endian limb decoder" (R91). -/
def barr2carrB (S : Nat) (b : List Byte) : Composite := (chunks S b).map barr2dwarrB

/-- `L`: "each chunk's bytes are reversed before the same big-endian limb decode" (R91); all `S` bytes
of the chunk, not each group of four. -/
def barr2carrL (S : Nat) (b : List Byte) : Composite := (chunks S b).map fun k => barr2dwarrB k.reverse

/-- R96: superword by superword, ragged composites too (R97). -/
def carr2barrB (c : Composite) : List Byte := c.flatMap dwarr2barrB

/-- R95: as `carr2barrB` with the bytes of each superword reversed (R98). -/
def carr2barrL (c : Composite) : List Byte := c.flatMap fun s => (dwarr2barrB s).reverse

/-- R100: "true iff every superword in the array has equal limb count". -/
def isConsistentCarr (c : Composite) : Bool := c.all fun x => c.all fun y => x.length == y.length

end F

/-- R93. -/
def execBarr2carrL (rd ra : SlotIx) (simm : Int) (s : State) : Host.Outcome State Fault Refusal :=
  finish .cb (withBA (s.slot ra) fun a => checkSize simm fun S =>
    checkLength S a (.write rd (.ca (F.barr2carrL S a)))) s

/-- R94. -/
def execBarr2carrB (rd ra : SlotIx) (simm : Int) (s : State) : Host.Outcome State Fault Refusal :=
  finish .cb (withBA (s.slot ra) fun a => checkSize simm fun S =>
    checkLength S a (.write rd (.ca (F.barr2carrB S a)))) s

/-- R95; no consistency check (R97). -/
def execCarr2barrL (rd ra : SlotIx) (s : State) : Host.Outcome State Fault Refusal :=
  finish .cb (withCA (s.slot ra) fun a => .write rd (.ba (F.carr2barrL a))) s

/-- R96; no consistency check (R97). -/
def execCarr2barrB (rd ra : SlotIx) (s : State) : Host.Outcome State Fault Refusal :=
  finish .cb (withCA (s.slot ra) fun a => .write rd (.ba (F.carr2barrB a))) s

/-- R100: answers in `STATUS.T`; a ragged composite is not an error (90_conflicts.md C4). -/
def execIsConsistentCarr (ra : SlotIx) (s : State) : Host.Outcome State Fault Refusal :=
  finish .cb (withCA (s.slot ra) fun a => .setT (F.isConsistentCarr a)) s

end Sys2Proof.Machine
end

