-- ==== Sys2Proof/Machine/Integers.lean ====
section
/-! DEFINITION. A superword and the integer it represents (00_scope.md R7, 10_state.md R12). -/

namespace Sys2Proof.Machine

/-- `val(s)` of R7: the unsigned integer a superword represents, limb 0 the most significant. -/
def val (s : Superword) : Nat := s.foldl (fun v x => v * 2 ^ 32 + x.toNat) 0

/-- `W(s) = 32 * N` of R7: the width of a superword in bits. -/
def width (s : Superword) : Nat := 32 * s.length

/-- `sval(s)` of R7: the two's complement value of a superword, 0 for the empty one. -/
def sval (s : Superword) : Int :=
  match s with
  | [] => 0
  | x :: rest => if x.msb then (val (x :: rest) : Int) - 2 ^ width (x :: rest) else val (x :: rest)

/-- `limbs(N, v)` of R7: the `N`-limb superword of the integer `v mod 2^(32 * N)`. -/
def limbs (n v : Nat) : Superword :=
  (List.range n).map fun i => BitVec.ofNat 32 (v / 2 ^ (32 * (n - 1 - i)))

end Sys2Proof.Machine
end

