-- ==== Sys2Proof/Machine/SreSteps.lean ====
section
/-! DEFINITION. The 1-bit primitives of the Shift/Rotate Engine and their `n`-fold repetition
(44_shift_rotate.md R126 to R131): the REFERENCE semantics, against which any other implementation is
right iff it gives the same bits (R140). Machine/Sre.lean runs the closed forms of R139; Laws/Sre.lean
proves that they are these. -/

namespace Sys2Proof.Machine

/-- Bit 31 or bit 0 as a limb that holds it in bit 0. -/
def bitLimb (b : Bool) : Limb := (BitVec.ofBool b).setWidth 32

/-- The scan of R126, least significant limb first: the shifted limbs and the carry out, which is the
pre-shift bit 31 of the first limb. -/
def leftScan : Superword → Superword × Bool
  | [] => ([], false)
  | x :: rest =>
    let (r, carry) := leftScan rest
    ((x <<< 1 ||| bitLimb carry) :: r, x.getLsbD 31)

/-- `LSH1(s)` (R126): the last carry is discarded. -/
def lsh1 (s : Superword) : Superword := (leftScan s).1

/-- The scan of R127 and R128, most significant limb first: the carry in goes to bit 31, the pre-shift
bit 0 is handed on. -/
def rightScan (carry : Bool) : Superword → Superword
  | [] => []
  | x :: rest => (x >>> 1 ||| bitLimb carry <<< 31) :: rightScan (x.getLsbD 0) rest

/-- `RSHZ1(s)` (R127): the vacated top bit is 0. -/
def rshz1 (s : Superword) : Superword := rightScan false s

/-- `RSHS1(s)` (R128): the vacated top bit is bit 31 of the first limb. -/
def rshs1 (s : Superword) : Superword :=
  match s with
  | [] => []
  | x :: rest => rightScan (x.getLsbD 31) (x :: rest)

/-- `LROT1(s)` (R129): `LSH1`, then bit 31 of `s[0]` into bit 0 of the last limb. -/
def lrot1 (s : Superword) : Superword :=
  match s with
  | [] => []
  | x :: rest => (lsh1 (x :: rest)).modify rest.length (· ||| bitLimb (x.getLsbD 31))

/-- `RROT1(s)` (R130): `RSHZ1`, then bit 0 of the last limb into bit 31 of `s[0]`. -/
def rrot1 (s : Superword) : Superword :=
  match s with
  | [] => []
  | x :: rest =>
    (rshz1 (x :: rest)).modify 0 (· ||| bitLimb ((((x :: rest).getLast (List.cons_ne_nil x rest)).getLsbD 0)) <<< 31)

/-- `P^n` of R131: `n`-fold application of a 1-bit step, `P^0` the identity. -/
def repeatStep (step : Superword → Superword) : Nat → Superword → Superword
  | 0, s => s
  | n + 1, s => repeatStep step n (step s)

end Sys2Proof.Machine
end

