-- ==== Sys2Proof/Machine/Sre.lean ====
section
/-! DEFINITION. The Shift/Rotate Engine (44_shift_rotate.md): the closed forms of R139, which R140 allows
in place of the 1-bit iteration ("A model may therefore define the commands by rule R131 or by rule R139;
it should prove them equal if it uses both": Laws/Sre.lean), and the meanings of its five commands,
R132 to R136. A count may be near 2^31, which the iteration could not run.
DEDUCED, notes/assumptions/7.md (safe). -/

namespace Sys2Proof.Machine

namespace F

/-- `s[j - q]` of R139, with `fill` for an index below 0 and 0 for one beyond the last limb. -/
def limbBelow (fill : Limb) (s : Superword) (j q : Nat) : Limb :=
  if j < q then fill else s.getD (j - q) 0

/-- `LSH(s, n)` of R139: limbs move `q = n / 32` places toward index 0, bits `r = n mod 32` more. A 32-bit
shift by 32 gives 0, so the second term is 0 when `r = 0`. -/
def lsh (s : Superword) (n : Nat) : Superword :=
  (List.range s.length).map fun i =>
    s.getD (i + n / 32) 0 <<< (n % 32) ||| s.getD (i + n / 32 + 1) 0 >>> (32 - n % 32)

/-- The right shifts of R139, limbs at an index below 0 being `fill`. -/
def rsh (fill : Limb) (s : Superword) (n : Nat) : Superword :=
  (List.range s.length).map fun i =>
    limbBelow fill s i (n / 32) >>> (n % 32) ||| limbBelow fill s i (n / 32 + 1) <<< (32 - n % 32)

/-- `RSHZ(s, n)` of R139. -/
def rshz (s : Superword) (n : Nat) : Superword := rsh 0 s n

/-- `RSHS(s, n)` of R139: the fill is all ones iff bit 31 of the first limb is 1. -/
def rshs (s : Superword) (n : Nat) : Superword :=
  rsh (if (s.getD 0 0).getLsbD 31 then 0xFFFFFFFF else 0) s n

/-- `LROT(s, n)` of R139: `limbs(N, ((v << k) | (v >> (W - k))) mod 2^W)` with `k = n mod W`. -/
def lrot (s : Superword) (n : Nat) : Superword :=
  match s with
  | [] => []
  | x :: rest =>
    let w := width (x :: rest)
    let v := val (x :: rest)
    let k := n % w
    limbs (rest.length + 1) ((v <<< k ||| v >>> (w - k)) % 2 ^ w)

/-- `RROT(s, n) = LROT(s, (W - (n mod W)) mod W)` of R139. -/
def rrot (s : Superword) (n : Nat) : Superword := lrot s ((width s - n % width s) % width s)

end F

/-- R132. -/
def execDwarrLShift (rd ra : SlotIx) (simm : Int) (s : State) : Host.Outcome State Fault Refusal :=
  finish .sre (withDA (s.slot ra) fun a => checkCount simm fun n => .write rd (.da (F.lsh a n))) s

/-- R133. -/
def execDwarrRShiftZ (rd ra : SlotIx) (simm : Int) (s : State) : Host.Outcome State Fault Refusal :=
  finish .sre (withDA (s.slot ra) fun a => checkCount simm fun n => .write rd (.da (F.rshz a n))) s

/-- R134. -/
def execDwarrRShiftS (rd ra : SlotIx) (simm : Int) (s : State) : Host.Outcome State Fault Refusal :=
  finish .sre (withDA (s.slot ra) fun a => checkCount simm fun n => .write rd (.da (F.rshs a n))) s

/-- R135: a negative count rotates right by its absolute value, a plain natural number (R145). -/
def execDwarrLRotate (rd ra : SlotIx) (simm : Int) (s : State) : Host.Outcome State Fault Refusal :=
  finish .sre (withDA (s.slot ra) fun a =>
    .write rd (.da (if 0 ≤ simm then F.lrot a simm.toNat else F.rrot a (-simm).toNat))) s

/-- R136: a negative count rotates left by its absolute value (R145). -/
def execDwarrRRotate (rd ra : SlotIx) (simm : Int) (s : State) : Host.Outcome State Fault Refusal :=
  finish .sre (withDA (s.slot ra) fun a =>
    .write rd (.da (if 0 ≤ simm then F.rrot a simm.toNat else F.lrot a (-simm).toNat))) s

end Sys2Proof.Machine
end

