-- ==== Sys2Proof/Machine/Dispatch.lean ====
section
/-! DEFINITION. One arm per command: the meaning of a decoded command (30_encoding.md R57, less the reply,
which the host port adds). -/

namespace Sys2Proof.Machine

def exec (i : Instr) (s : State) : Host.Outcome State Fault Refusal :=
  match i with
  | .barr2warrL rd ra => Sys2Proof.Machine.execBarr2warrL rd ra s
  | .barr2warrB rd ra => Sys2Proof.Machine.execBarr2warrB rd ra s
  | .warr2barrL rd ra => Sys2Proof.Machine.execWarr2barrL rd ra s
  | .warr2barrB rd ra => Sys2Proof.Machine.execWarr2barrB rd ra s
  | .barr2dwarrL rd ra => Sys2Proof.Machine.execBarr2dwarrL rd ra s
  | .barr2dwarrB rd ra => Sys2Proof.Machine.execBarr2dwarrB rd ra s
  | .dwarr2barrL rd ra => Sys2Proof.Machine.execDwarr2barrL rd ra s
  | .dwarr2barrB rd ra => Sys2Proof.Machine.execDwarr2barrB rd ra s
  | .barr2carrL rd ra n => Sys2Proof.Machine.execBarr2carrL rd ra n s
  | .barr2carrB rd ra n => Sys2Proof.Machine.execBarr2carrB rd ra n s
  | .carr2barrL rd ra => Sys2Proof.Machine.execCarr2barrL rd ra s
  | .carr2barrB rd ra => Sys2Proof.Machine.execCarr2barrB rd ra s
  | .isConsistentCarr ra => Sys2Proof.Machine.execIsConsistentCarr ra s
  | .dwarrAnd rd ra rb => Sys2Proof.Machine.execDwarrAnd rd ra rb s
  | .dwarrOr rd ra rb => Sys2Proof.Machine.execDwarrOr rd ra rb s
  | .dwarrXor rd ra rb => Sys2Proof.Machine.execDwarrXor rd ra rb s
  | .dwarrNot rd ra => Sys2Proof.Machine.execDwarrNot rd ra s
  | .dwarrLShift rd ra n => Sys2Proof.Machine.execDwarrLShift rd ra n s
  | .dwarrRShiftZ rd ra n => Sys2Proof.Machine.execDwarrRShiftZ rd ra n s
  | .dwarrRShiftS rd ra n => Sys2Proof.Machine.execDwarrRShiftS rd ra n s
  | .dwarrLRotate rd ra n => Sys2Proof.Machine.execDwarrLRotate rd ra n s
  | .dwarrRRotate rd ra n => Sys2Proof.Machine.execDwarrRRotate rd ra n s

end Sys2Proof.Machine
end

