-- ==== Sys2Proof/Machine/HostPort.lean ====
section
/-! DEFINITION. The host port: what each of the five transactions does (20_memory.md R38 to R41,
70_reset_and_hazards.md R185), and how the engine serves the stream of transactions, one at a time, each
to completion, in issue order (R42). -/

namespace Sys2Proof.Machine

/-- Hand a reply to the host. -/
def State.reply (r : Reply) (s : State) : State := { s with replies := s.replies ++ [r] }

/-- `HWRITE(i, v)` (R38), the capacity of a slot being `cap`. `STATUS` is not changed. -/
def hwrite (cap : Option Nat) (i : SlotIx) (v : HostValue) (s : State) : State :=
  if v.toValue.fits cap then (s.setSlot i v.toValue).reply .accepted else s.reply .refused

/-- `HREAD(i)` (R39). -/
def hread (i : SlotIx) (s : State) : State := s.reply (.value (s.slot i))

/-- `HSTATUS()` (R40): reading does not clear `KIND`. -/
def hstatus (s : State) : State := s.reply (.status s.statusWord)

/-- `HRESET()` (R185): every piece of state to the value R24 gives; it replies nothing. That it leaves
`pending` and `replies` is a DESIGN CHOICE, notes/assumptions/4.md (unsafe), as is that a platform's reset is this
transaction, notes/assumptions/14.md. -/
def hreset (s : State) : State :=
  { s with slots := Vector.replicate 16 .u, status := 0 }

/-- Reply the new value of `STATUS`, if the command came to its end. -/
def replyStatus (o : Host.Outcome State Fault Refusal) : Host.Outcome State Fault Refusal :=
  match o with
  | .next t => .next (t.reply (.status t.statusWord))
  | .fault f => .fault f
  | .refused r => .refused r

/-- `HCMD(c)` (R41, R57): decode, execute, reply `STATUS`. A word that does not decode raises
IllegalCommand with `COMP` 0 (R166). -/
def hcmd (c : BitVec 64) (s : State) : Host.Outcome State Fault Refusal :=
  match decode c with
  | .error _ => replyStatus (.next (s.raiseError .illegalCommand .shell))
  | .ok i => replyStatus (exec i s)

/-- Serve one transaction to completion, as one step (R37, R42). DEDUCED, notes/assumptions/11.md. -/
def serve (cap : Option Nat) (x : Transaction) (s : State) : Host.Outcome State Fault Refusal :=
  match x with
  | .hwrite i v => .next (hwrite cap i v s)
  | .hread i => .next (hread i s)
  | .hstatus => .next (hstatus s)
  | .hcmd c => hcmd c s
  | .hreset => .next (hreset s)

/-- One step of a machine whose slots hold `cap` bytes: serve the oldest transaction. With none pending
the engine is idle and nothing changes (R192). DEDUCED, notes/assumptions/1.md (unsafe in form). -/
def stepWith (cap : Option Nat) (s : State) : Host.Outcome State Fault Refusal :=
  match s.pending with
  | [] => .next s
  | x :: rest => serve cap x { s with pending := rest }

/-- The host issues a transaction ahead of all it has issued so far. -/
def State.issueFirst (x : Transaction) (s : State) : State := { s with pending := x :: s.pending }

end Sys2Proof.Machine
end

