-- ==== Sys2Proof/Machine/Step.lean ====
section
/-! DEFINITION. The step: one host transaction (20_memory.md R42), the slot capacity being the
implementation's (00_scope.md R6). There is no program counter and no fetch (10_state.md R21): a command
reaches the engine with `HCMD`. -/

namespace Sys2Proof.Machine

/-- One step of the machine. -/
def step (s : State) : Host.Outcome State Fault Refusal := stepWith Config.slotBytes s

/-- `s` with the table's word `w` handed over by `HCMD` as the next transaction, ahead of those already
pending: the very next step decodes and runs it. DEDUCED, notes/assumptions/12.md
(safe). -/
def State.withFetchWord (s : State) (nbits w : Nat) : State :=
  s.issueFirst (.hcmd (tableWord nbits w))

end Sys2Proof.Machine
end

