-- ==== Sys2Proof/Safety.lean ====
section
/-! DEFINITION. What counts as a safe run, in the terms the statements use: how a command ends (frames
included), which states are legal, and a sequence of transactions applied in order. -/

namespace Sys2Proof.Machine

/-! ### How a command ends -/

/-- Nothing of `s` changed in `t` but slots, `STATUS.KIND`, `STATUS.COMP` and `STATUS.T`. -/
def HostSideKept (s t : State) : Prop :=
  t.statusRest = s.statusRest ∧ t.pending = s.pending ∧ t.replies = s.replies

/-- The command `i` at `s` completes by writing `v` to slot `rd`: `KIND` and `COMP` become 0 and nothing
else changes, no other slot and not `STATUS.T` (R57, R58). -/
def CompletesWriting (i : Instr) (s : State) (rd : SlotIx) (v : Value) : Prop :=
  ∃ t, exec i s = .next t ∧ t.slot rd = v ∧ (∀ j, j ≠ rd → t.slot j = s.slot j) ∧
    t.kind = 0 ∧ t.comp = 0 ∧ t.flagT = s.flagT ∧ HostSideKept s t

/-- The command `i` at `s` completes by writing `b` to `STATUS.T`: `KIND` and `COMP` become 0 and no slot
changes (R57). -/
def CompletesSettingT (i : Instr) (s : State) (b : Bool) : Prop :=
  ∃ t, exec i s = .next t ∧ t.flagT = b ∧ (∀ j, t.slot j = s.slot j) ∧
    t.kind = 0 ∧ t.comp = 0 ∧ HostSideKept s t

/-- The command `i` at `s` ends with an error: `KIND` and `COMP` are written and nothing else changes, no
slot and not `STATUS.T` (R57, R170). -/
def EndsInError (i : Instr) (s : State) (kind comp : BitVec 4) : Prop :=
  ∃ t, exec i s = .next t ∧ t.kind = kind ∧ t.comp = comp ∧ t.flagT = s.flagT ∧
    (∀ j, t.slot j = s.slot j) ∧ HostSideKept s t

/-! ### What a command names -/

/-- The slots a command reads. -/
def sources : Instr → List SlotIx
  | .barr2warrL _ ra => [ra]
  | .barr2warrB _ ra => [ra]
  | .warr2barrL _ ra => [ra]
  | .warr2barrB _ ra => [ra]
  | .barr2dwarrL _ ra => [ra]
  | .barr2dwarrB _ ra => [ra]
  | .dwarr2barrL _ ra => [ra]
  | .dwarr2barrB _ ra => [ra]
  | .barr2carrL _ ra _ => [ra]
  | .barr2carrB _ ra _ => [ra]
  | .carr2barrL _ ra => [ra]
  | .carr2barrB _ ra => [ra]
  | .isConsistentCarr ra => [ra]
  | .dwarrAnd _ ra rb => [ra, rb]
  | .dwarrOr _ ra rb => [ra, rb]
  | .dwarrXor _ ra rb => [ra, rb]
  | .dwarrNot _ ra => [ra]
  | .dwarrLShift _ ra _ => [ra]
  | .dwarrRShiftZ _ ra _ => [ra]
  | .dwarrRShiftS _ ra _ => [ra]
  | .dwarrLRotate _ ra _ => [ra]
  | .dwarrRRotate _ ra _ => [ra]

/-- The slot a command may write and the tag of what it writes there (R58); none for the validator. -/
def destination : Instr → Option (SlotIx × Tag)
  | .barr2warrL rd _ => some (rd, .WA)
  | .barr2warrB rd _ => some (rd, .WA)
  | .warr2barrL rd _ => some (rd, .BA)
  | .warr2barrB rd _ => some (rd, .BA)
  | .barr2dwarrL rd _ => some (rd, .DA)
  | .barr2dwarrB rd _ => some (rd, .DA)
  | .dwarr2barrL rd _ => some (rd, .BA)
  | .dwarr2barrB rd _ => some (rd, .BA)
  | .barr2carrL rd _ _ => some (rd, .CA)
  | .barr2carrB rd _ _ => some (rd, .CA)
  | .carr2barrL rd _ => some (rd, .BA)
  | .carr2barrB rd _ => some (rd, .BA)
  | .isConsistentCarr _ => none
  | .dwarrAnd rd _ _ => some (rd, .DA)
  | .dwarrOr rd _ _ => some (rd, .DA)
  | .dwarrXor rd _ _ => some (rd, .DA)
  | .dwarrNot rd _ => some (rd, .DA)
  | .dwarrLShift rd _ _ => some (rd, .DA)
  | .dwarrRShiftZ rd _ _ => some (rd, .DA)
  | .dwarrRShiftS rd _ _ => some (rd, .DA)
  | .dwarrLRotate rd _ _ => some (rd, .DA)
  | .dwarrRRotate rd _ _ => some (rd, .DA)

/-- The same command with another destination slot (the validator has none). -/
def retarget (r : SlotIx) : Instr → Instr
  | .barr2warrL _ ra => .barr2warrL r ra
  | .barr2warrB _ ra => .barr2warrB r ra
  | .warr2barrL _ ra => .warr2barrL r ra
  | .warr2barrB _ ra => .warr2barrB r ra
  | .barr2dwarrL _ ra => .barr2dwarrL r ra
  | .barr2dwarrB _ ra => .barr2dwarrB r ra
  | .dwarr2barrL _ ra => .dwarr2barrL r ra
  | .dwarr2barrB _ ra => .dwarr2barrB r ra
  | .barr2carrL _ ra n => .barr2carrL r ra n
  | .barr2carrB _ ra n => .barr2carrB r ra n
  | .carr2barrL _ ra => .carr2barrL r ra
  | .carr2barrB _ ra => .carr2barrB r ra
  | .isConsistentCarr ra => .isConsistentCarr ra
  | .dwarrAnd _ ra rb => .dwarrAnd r ra rb
  | .dwarrOr _ ra rb => .dwarrOr r ra rb
  | .dwarrXor _ ra rb => .dwarrXor r ra rb
  | .dwarrNot _ ra => .dwarrNot r ra
  | .dwarrLShift _ ra n => .dwarrLShift r ra n
  | .dwarrRShiftZ _ ra n => .dwarrRShiftZ r ra n
  | .dwarrRShiftS _ ra n => .dwarrRShiftS r ra n
  | .dwarrLRotate _ ra n => .dwarrLRotate r ra n
  | .dwarrRRotate _ ra n => .dwarrRRotate r ra n

/-- The error kinds the table of R168 lets a command raise. -/
def mayRaise : Instr → List (BitVec 4)
  | .barr2warrL _ _ => [1, 2]
  | .barr2warrB _ _ => [1, 2]
  | .warr2barrL _ _ => [1]
  | .warr2barrB _ _ => [1]
  | .barr2dwarrL _ _ => [1, 2]
  | .barr2dwarrB _ _ => [1, 2]
  | .dwarr2barrL _ _ => [1]
  | .dwarr2barrB _ _ => [1]
  | .barr2carrL _ _ _ => [1, 2, 3]
  | .barr2carrB _ _ _ => [1, 2, 3]
  | .carr2barrL _ _ => [1]
  | .carr2barrB _ _ => [1]
  | .isConsistentCarr _ => [1]
  | .dwarrAnd _ _ _ => [1, 5]
  | .dwarrOr _ _ _ => [1, 5]
  | .dwarrXor _ _ _ => [1, 5]
  | .dwarrNot _ _ => [1]
  | .dwarrLShift _ _ _ => [1, 4]
  | .dwarrRShiftZ _ _ _ => [1, 4]
  | .dwarrRShiftS _ _ _ => [1, 4]
  | .dwarrLRotate _ _ _ => [1]
  | .dwarrRRotate _ _ _ => [1]

/-! ### The opcode table, as spec/opcode_table.json prints it -/

/-- A slot field of a command word: the four bits from bit `lo` up (R50). -/
def slotField (c : BitVec 64) (lo : Nat) : SlotIx := Fin.ofNat 16 (c.toNat / 2 ^ lo)

/-- The immediate of a command word: "`simm = imm` if `imm < 2^31`, else `imm - 2^32`" (R52). -/
def immField (c : BitVec 64) : Int :=
  let imm : Nat := c.toNat / 2 ^ 32
  if imm < 2 ^ 31 then (imm : Int) else (imm : Int) - 2 ^ 32

/-- The (mask, match) pairs of the 22 rows. -/
def tableRows : List (BitVec 64 × BitVec 64) :=
  [(0xFFFFFFFFFF00FFFF#64, 0x0000000010000000#64),
   (0xFFFFFFFFFF00FFFF#64, 0x0000000011000000#64),
   (0xFFFFFFFFFF00FFFF#64, 0x0000000012000000#64),
   (0xFFFFFFFFFF00FFFF#64, 0x0000000013000000#64),
   (0xFFFFFFFFFF00FFFF#64, 0x0000000014000000#64),
   (0xFFFFFFFFFF00FFFF#64, 0x0000000015000000#64),
   (0xFFFFFFFFFF00FFFF#64, 0x0000000016000000#64),
   (0xFFFFFFFFFF00FFFF#64, 0x0000000017000000#64)] ++
  [(0x00000000FF00FFFF#64, 0x0000000020000000#64),
   (0x00000000FF00FFFF#64, 0x0000000021000000#64),
   (0xFFFFFFFFFF00FFFF#64, 0x0000000022000000#64),
   (0xFFFFFFFFFF00FFFF#64, 0x0000000023000000#64),
   (0xFFFFFFFFFFF0FFFF#64, 0x0000000024000000#64)] ++
  [(0xFFFFFFFFFF000FFF#64, 0x0000000030000000#64),
   (0xFFFFFFFFFF000FFF#64, 0x0000000031000000#64),
   (0xFFFFFFFFFF000FFF#64, 0x0000000032000000#64),
   (0xFFFFFFFFFF00FFFF#64, 0x0000000033000000#64)] ++
  [(0x00000000FF00FFFF#64, 0x0000000040000000#64),
   (0x00000000FF00FFFF#64, 0x0000000041000000#64),
   (0x00000000FF00FFFF#64, 0x0000000042000000#64),
   (0x00000000FF00FFFF#64, 0x0000000043000000#64),
   (0x00000000FF00FFFF#64, 0x0000000044000000#64)]

/-! ### Legal states -/

/-- The pairs (`KIND`, `COMP`) a command or reset can leave (R18, R168): `COMP` is 0 iff `KIND` is 0 or 6. -/
def legalOutcomes : List (BitVec 4 × BitVec 4) :=
  [(0, 0), (6, 0), (1, 1), (1, 2), (1, 3), (1, 4), (2, 1), (2, 2), (3, 2), (4, 4), (5, 3)]

/-- `STATUS` holds a pair the hardware produces, and bits 31:9 are 0 (R18). -/
def StatusLegal (s : State) : Prop := (s.kind, s.comp) ∈ legalOutcomes ∧ s.statusRest = 0

/-- Every slot's value fits a slot of `cap` bytes (R17). -/
def SlotsFit (cap : Option Nat) (s : State) : Prop := ∀ i, (s.slot i).fits cap = true

/-! ### Integers of byte strings -/

/-- The integer whose big-endian representation is `b`. -/
def bigEndian (b : List Byte) : Nat := b.foldl (fun v x => v * 256 + x.toNat) 0

/-- The integer whose little-endian representation is `b`. -/
def littleEndian (b : List Byte) : Nat := b.foldr (fun x v => x.toNat + 256 * v) 0

/-! ### Sequences of transactions (R42) -/

/-- Apply transactions one after another, each alone at the port. -/
def applyInOrder : List Transaction → State → Option State
  | [], s => some s
  | x :: rest, s =>
    match step { s with pending := [x] } with
    | .next t => applyInOrder rest t
    | .fault _ => none
    | .refused _ => none

end Sys2Proof.Machine
end

