-- ==== Sys2Proof/Certificates/Slice0/Obligations.lean ====
section
/-! DEFINITION. The statements for the provers: def Obligations.<Name> : Prop, listed in OBLIGATIONS.json.
Each docstring names the rule of spec/ it formalises; where a clause rests on an inference the spec marks
`[derived]` or on a choice of the model, the docstring says so. -/

open Sys2Proof Sys2Proof.Machine

/-! ### Encoding -/

/-- Derived from R50 to R54: decoding the word of a well-formed instruction gives the instruction back, every
operand at every value. -/
def Obligations.DecodeOfEncodeIsTheInstruction : Prop :=
  ∀ i : Instr, i.wellFormed = true → decode (encode i) = .ok i

/-- Derived from R50 to R54: a word that decodes is the word of the instruction it decodes to, which is
well-formed; so no bit of a command word is ignored. -/
def Obligations.EncodeOfDecodeIsTheWord : Prop :=
  ∀ (c : BitVec 64) (i : Instr), decode c = .ok i → encode i = c ∧ i.wellFormed = true

/-- R51, R54: "a word `c` is the command of a row iff `c & mask = match`", with the 22 masks and matches of
the opcode table and the fields where R50 and R52 put them; a word of no row decodes to no command. -/
def Obligations.WordIsTheCommandOfARowIffMaskMatches : Prop :=
  ∀ (c : BitVec 64) (rd ra rb : SlotIx) (n : Int),
    ((∀ r ∈ tableRows, c &&& r.1 ≠ r.2) → ∃ e, decode c = .error e) ∧
    (decode c = .ok (.barr2warrL rd ra) ↔
      c &&& 0xFFFFFFFFFF00FFFF#64 = 0x0000000010000000#64 ∧ rd = slotField c 20 ∧ ra = slotField c 16) ∧
    (decode c = .ok (.barr2warrB rd ra) ↔
      c &&& 0xFFFFFFFFFF00FFFF#64 = 0x0000000011000000#64 ∧ rd = slotField c 20 ∧ ra = slotField c 16) ∧
    (decode c = .ok (.warr2barrL rd ra) ↔
      c &&& 0xFFFFFFFFFF00FFFF#64 = 0x0000000012000000#64 ∧ rd = slotField c 20 ∧ ra = slotField c 16) ∧
    (decode c = .ok (.warr2barrB rd ra) ↔
      c &&& 0xFFFFFFFFFF00FFFF#64 = 0x0000000013000000#64 ∧ rd = slotField c 20 ∧ ra = slotField c 16) ∧
    (decode c = .ok (.barr2dwarrL rd ra) ↔
      c &&& 0xFFFFFFFFFF00FFFF#64 = 0x0000000014000000#64 ∧ rd = slotField c 20 ∧ ra = slotField c 16) ∧
    (decode c = .ok (.barr2dwarrB rd ra) ↔
      c &&& 0xFFFFFFFFFF00FFFF#64 = 0x0000000015000000#64 ∧ rd = slotField c 20 ∧ ra = slotField c 16) ∧
    (decode c = .ok (.dwarr2barrL rd ra) ↔
      c &&& 0xFFFFFFFFFF00FFFF#64 = 0x0000000016000000#64 ∧ rd = slotField c 20 ∧ ra = slotField c 16) ∧
    (decode c = .ok (.dwarr2barrB rd ra) ↔
      c &&& 0xFFFFFFFFFF00FFFF#64 = 0x0000000017000000#64 ∧ rd = slotField c 20 ∧ ra = slotField c 16) ∧
    (decode c = .ok (.barr2carrL rd ra n) ↔
      c &&& 0x00000000FF00FFFF#64 = 0x0000000020000000#64 ∧ rd = slotField c 20 ∧ ra = slotField c 16 ∧ n = immField c) ∧
    (decode c = .ok (.barr2carrB rd ra n) ↔
      c &&& 0x00000000FF00FFFF#64 = 0x0000000021000000#64 ∧ rd = slotField c 20 ∧ ra = slotField c 16 ∧ n = immField c) ∧
    (decode c = .ok (.carr2barrL rd ra) ↔
      c &&& 0xFFFFFFFFFF00FFFF#64 = 0x0000000022000000#64 ∧ rd = slotField c 20 ∧ ra = slotField c 16) ∧
    (decode c = .ok (.carr2barrB rd ra) ↔
      c &&& 0xFFFFFFFFFF00FFFF#64 = 0x0000000023000000#64 ∧ rd = slotField c 20 ∧ ra = slotField c 16) ∧
    (decode c = .ok (.isConsistentCarr ra) ↔
      c &&& 0xFFFFFFFFFFF0FFFF#64 = 0x0000000024000000#64 ∧ ra = slotField c 16) ∧
    (decode c = .ok (.dwarrAnd rd ra rb) ↔
      c &&& 0xFFFFFFFFFF000FFF#64 = 0x0000000030000000#64 ∧ rd = slotField c 20 ∧ ra = slotField c 16 ∧ rb = slotField c 12) ∧
    (decode c = .ok (.dwarrOr rd ra rb) ↔
      c &&& 0xFFFFFFFFFF000FFF#64 = 0x0000000031000000#64 ∧ rd = slotField c 20 ∧ ra = slotField c 16 ∧ rb = slotField c 12) ∧
    (decode c = .ok (.dwarrXor rd ra rb) ↔
      c &&& 0xFFFFFFFFFF000FFF#64 = 0x0000000032000000#64 ∧ rd = slotField c 20 ∧ ra = slotField c 16 ∧ rb = slotField c 12) ∧
    (decode c = .ok (.dwarrNot rd ra) ↔
      c &&& 0xFFFFFFFFFF00FFFF#64 = 0x0000000033000000#64 ∧ rd = slotField c 20 ∧ ra = slotField c 16) ∧
    (decode c = .ok (.dwarrLShift rd ra n) ↔
      c &&& 0x00000000FF00FFFF#64 = 0x0000000040000000#64 ∧ rd = slotField c 20 ∧ ra = slotField c 16 ∧ n = immField c) ∧
    (decode c = .ok (.dwarrRShiftZ rd ra n) ↔
      c &&& 0x00000000FF00FFFF#64 = 0x0000000041000000#64 ∧ rd = slotField c 20 ∧ ra = slotField c 16 ∧ n = immField c) ∧
    (decode c = .ok (.dwarrRShiftS rd ra n) ↔
      c &&& 0x00000000FF00FFFF#64 = 0x0000000042000000#64 ∧ rd = slotField c 20 ∧ ra = slotField c 16 ∧ n = immField c) ∧
    (decode c = .ok (.dwarrLRotate rd ra n) ↔
      c &&& 0x00000000FF00FFFF#64 = 0x0000000043000000#64 ∧ rd = slotField c 20 ∧ ra = slotField c 16 ∧ n = immField c) ∧
    (decode c = .ok (.dwarrRRotate rd ra n) ↔
      c &&& 0x00000000FF00FFFF#64 = 0x0000000044000000#64 ∧ rd = slotField c 20 ∧ ra = slotField c 16 ∧ n = immField c)

/-- Words written out in the spec (R72, R100 and section 5 of 30_encoding.md, T-DEC-1 to T-DEC-8) and what
they are. -/
def Obligations.WordsWrittenOutInTheSpecDecode : Prop :=
  decode 0x0000000010100000#64 = .ok (.barr2warrL 1 0) ∧
  decode 0x0000000821100000#64 = .ok (.barr2carrB 1 0 8) ∧
  decode 0x0000000024020000#64 = .ok (.isConsistentCarr 2) ∧
  decode 0x0000000032312000#64 = .ok (.dwarrXor 3 1 2) ∧
  decode 0x0000000340100000#64 = .ok (.dwarrLShift 1 0 3) ∧
  decode 0xFFFFFFFC43220000#64 = .ok (.dwarrLRotate 2 2 (-4)) ∧
  decode 0x0000000000000000#64 = .error .unknownOpcode ∧
  decode 0x0000000145100000#64 = .error .unknownOpcode ∧
  decode 0x0000000110100000#64 = .error .nonZeroField ∧
  decode 0x0000000030201001#64 = .error .nonZeroField ∧
  decode 0x0000000024120000#64 = .error .nonZeroField ∧
  decode 0x0000000040101000#64 = .error .nonZeroField

/-! ### The host port and the step -/

/-- Derived from R41 and R57: with a command word at the head of the pending transactions that decodes to
`i`, the step takes the transaction off, runs `exec i`, and replies the new `STATUS`. -/
def Obligations.StepRunsTheDecodedCommand : Prop :=
  ∀ (s : State) (c : BitVec 64) (rest : List Transaction) (i : Instr),
    s.pending = .hcmd c :: rest → decode c = .ok i → i.wellFormed = true →
      (∀ t, exec i { s with pending := rest } = .next t →
        step s = .next { t with replies := t.replies ++ [.status t.statusWord] }) ∧
      (∀ f, exec i { s with pending := rest } = .fault f → step s = .fault f) ∧
      (∀ r, exec i { s with pending := rest } = .refused r → step s = .refused r)

/-- R55, R166: every word either meets one row of the table and is its command, or is illegal; an illegal word
raises IllegalCommand with `COMP` 0, changes no slot and not `STATUS.T`, and the host gets the new `STATUS`. -/
def Obligations.IllegalWordRaisesIllegalCommand : Prop :=
  (∀ c : BitVec 64, (∃ r ∈ tableRows, c &&& r.1 = r.2) ↔ ∃ i, decode c = .ok i) ∧
  ∀ (s : State) (c : BitVec 64) (rest : List Transaction),
    s.pending = .hcmd c :: rest → (∀ r ∈ tableRows, c &&& r.1 ≠ r.2) →
      ∃ t, step s = .next t ∧ t.kind = 6 ∧ t.comp = 0 ∧ t.flagT = s.flagT ∧ t.statusRest = s.statusRest ∧
        (∀ j, t.slot j = s.slot j) ∧ t.pending = rest ∧ t.replies = s.replies ++ [.status t.statusWord]

/-- Derived from R170, R57 and R63: every `HCMD` completes, is taken off the pending transactions and is
answered with the new `STATUS`; it succeeds, leaving `KIND` and `COMP` 0, or ends in an error, which changes
nothing but `KIND` and `COMP`: one of the five kinds of the units with the unit of the command, bits 31:28 of
its word, or IllegalCommand with 0, the latter iff the word does not decode. -/
def Obligations.ErrorIsDeliveredInStatusAlone : Prop :=
  ∀ (s : State) (c : BitVec 64) (rest : List Transaction), s.pending = .hcmd c :: rest →
    ∃ t, step s = .next t ∧ t.pending = rest ∧ t.replies = s.replies ++ [.status t.statusWord] ∧
      t.statusRest = s.statusRest ∧
      (t.kind = 6 ↔ ∃ e, decode c = .error e) ∧
      (t.kind = 0 ∧ t.comp = 0 ∨
        (t.kind ∈ [1, 2, 3, 4, 5] ∧ t.comp = c.extractLsb' 28 4 ∨ t.kind = 6 ∧ t.comp = 0) ∧
          (∀ j, t.slot j = s.slot j) ∧ t.flagT = s.flagT)

/-- Derived from R17: the byte size of each shape, and when a value fits. -/
def Obligations.ValueFitsIffItsSizeIsWithinCapacity : Prop :=
  Value.size .u = 0 ∧ (∀ b, Value.size (.ba b) = b.length) ∧ (∀ w, Value.size (.wa w) = 2 * w.length) ∧
  (∀ d, Value.size (.da d) = 4 * d.length) ∧ Value.size (.ca []) = 0 ∧
  (∀ x c, Value.size (.ca (x :: c)) = 4 * x.length + Value.size (.ca c)) ∧
  (∀ v, Value.fits none v = true) ∧
  ∀ n v, Value.fits (some n) v = true ↔ v.size ≤ n ∧ ∀ c, v = .ca c → c.length ≤ n / 4

/-- R38: `HWRITE` of a value that fits writes the slot and replies `accepted`; otherwise no state changes and
the reply is `refused`; `STATUS` is never changed. For every capacity `cap` of a slot, and the machine's step is
that of its own capacity. -/
def Obligations.HwriteWritesWhatFitsAndRefusesTheRest : Prop :=
  (∀ s : State, step s = stepWith Config.slotBytes s) ∧
  ∀ (cap : Option Nat) (s : State) (i : SlotIx) (v : HostValue) (rest : List Transaction),
    s.pending = .hwrite i v :: rest →
      ∃ t, stepWith cap s = .next t ∧ t.pending = rest ∧ t.status = s.status ∧
        (v.toValue.fits cap = true → t.slot i = v.toValue ∧ (∀ j, j ≠ i → t.slot j = s.slot j) ∧
          t.replies = s.replies ++ [.accepted]) ∧
        (v.toValue.fits cap = false → (∀ j, t.slot j = s.slot j) ∧ t.replies = s.replies ++ [.refused])

/-- Derived from R39, with R38, R41, R42 and R185: `HREAD` replies the slot's tag and contents and changes no
state: what an accepted `HWRITE` or a command has just put there, and the tag `U` for a slot not written since
reset. That an `HREAD` issued after an `HRESET` is still served is the model's (notes/assumptions/4.md). -/
def Obligations.HreadRepliesTheSlotAndChangesNothing : Prop :=
  (∀ (s : State) (i : SlotIx) (rest : List Transaction), s.pending = .hread i :: rest →
    step s = .next { s with pending := rest, replies := s.replies ++ [.value (s.slot i)] }) ∧
  (∀ (s : State) (i : SlotIx) (v : HostValue) (rest : List Transaction),
    s.pending = .hwrite i v :: .hread i :: rest → v.toValue.fits Config.slotBytes = true →
      ∃ u, Host.Core.run Sys2Proof.core 2 s = .next u ∧
        u.replies = s.replies ++ [.accepted, .value v.toValue]) ∧
  (∀ (s : State) (c : BitVec 64) (i : Instr) (rd : SlotIx) (v : Value) (rest : List Transaction),
    s.pending = .hcmd c :: .hread rd :: rest → decode c = .ok i →
      CompletesWriting i { s with pending := .hread rd :: rest } rd v →
      ∃ u w, Host.Core.run Sys2Proof.core 2 s = .next u ∧ u.replies = s.replies ++ [.status w, .value v]) ∧
  ∀ (s : State) (i : SlotIx) (rest : List Transaction), s.pending = .hreset :: .hread i :: rest →
    ∃ u, Host.Core.run Sys2Proof.core 2 s = .next u ∧ u.replies = s.replies ++ [.value .u]

/-- R40: `HSTATUS` replies 32 bits that hold `KIND`, `COMP` and `T` in bits 3:0, 7:4 and 8 and 0
above, and changes no state; in particular `KIND` stays. -/
def Obligations.HstatusRepliesStatusAndChangesNothing : Prop :=
  ∀ (s : State) (rest : List Transaction), s.pending = .hstatus :: rest →
    ∃ w : BitVec 32, step s = .next { s with pending := rest, replies := s.replies ++ [.status w] } ∧
      w.extractLsb' 0 4 = s.kind ∧ w.extractLsb' 4 4 = s.comp ∧ w.getLsbD 8 = s.flagT ∧
      ∀ k, 9 ≤ k → w.getLsbD k = false

/-- R24, R185: `HRESET` sets every slot to unset and `STATUS` to 0; it cannot fail and replies nothing. -/
def Obligations.HresetSetsEveryResetValue : Prop :=
  ∀ (s : State) (rest : List Transaction), s.pending = .hreset :: rest →
    ∃ t, step s = .next t ∧ (∀ i, t.slot i = .u) ∧ t.kind = 0 ∧ t.comp = 0 ∧ t.flagT = false ∧
      t.statusRest = 0 ∧ t.replies = s.replies

/-- R24: the state right after reset. -/
def Obligations.ResetStateHoldsTheResetValues : Prop :=
  (∀ i, State.reset.slot i = .u) ∧ State.reset.kind = 0 ∧ State.reset.comp = 0 ∧ State.reset.flagT = false ∧
    State.reset.statusRest = 0

/-- Derived from R192 ("The engine is idle between transactions and after the last one"); that the idle
machine takes a step which changes nothing is the model's (notes/assumptions/1.md). -/
def Obligations.IdleEngineChangesNothing : Prop :=
  ∀ s : State, s.pending = [] → step s = .next s

/-- Derived from R41, R42, R185 and R192: every step gives a next state, whatever the state; a pending
transaction is taken off, and it is answered by exactly one reply, or by none if it is `HRESET` (R185). The
model's are: that the idle machine takes a step at all (notes/assumptions/1.md), that nothing stops the engine,
`Fault` having no constructor (notes/assumptions/10.md), and that `HRESET` leaves the later transactions pending
(notes/assumptions/4.md). -/
def Obligations.EveryTransactionCompletesAndIsAnsweredOnce : Prop :=
  ∀ s : State, ∃ t, step s = .next t ∧
    ∀ x rest, s.pending = x :: rest → t.pending = rest ∧
      (x = .hreset → t.replies = s.replies) ∧ (x ≠ .hreset → ∃ r, t.replies = s.replies ++ [r])

/-- Derived from R42 ("the state after a sequence of transactions is the state obtained by applying them in
that order"): a run of as many steps as there are transactions `xs` at the head serves exactly those, in order,
each as if it were alone at the port, whatever the host has issued after them. The model's are: the yardstick
`applyInOrder`, which presents each transaction alone (notes/assumptions/18.md), and that transactions issued
after an `HRESET` are still served (notes/assumptions/4.md). -/
def Obligations.RunAppliesTransactionsInIssueOrder : Prop :=
  ∀ (s : State) (xs later : List Transaction), s.pending = xs ++ later →
    ∃ u, applyInOrder xs { s with pending := [] } = some u ∧
      Host.Core.run Sys2Proof.core xs.length s = .next { u with pending := later }

/-- Derived from R18 and R25: `STATUS` is "written only by commands and by reset". R16 and R25: a slot is written by a
successful command that has it as destination, by `HWRITE` and by reset, and by nothing else. -/
def Obligations.OnlyCommandsHwriteAndResetWriteState : Prop :=
  ∀ (s t : State) (x : Transaction) (rest : List Transaction), s.pending = x :: rest → step s = .next t →
    (t.status ≠ s.status → x = .hreset ∨ ∃ c, x = .hcmd c) ∧
    ∀ j, t.slot j ≠ s.slot j →
      x = .hreset ∨ (∃ v, x = .hwrite j v ∧ t.slot j = v.toValue) ∨
        ∃ c i T, x = .hcmd c ∧ decode c = .ok i ∧ destination i = some (j, T) ∧ t.kind = 0

/-! ### Endian View Converter -/

/-- R72, R73: `barr2warrL` and `barr2warrB`, on every operand, with what they leave unchanged, and the
encodings the rules give. -/
def Obligations.ByteArrayToWordArray : Prop :=
  decode 0x0000000010100000#64 = .ok (.barr2warrL 1 0) ∧
  decode 0x0000000011100000#64 = .ok (.barr2warrB 1 0) ∧
  ∀ (s : State) (rd ra : SlotIx),
    ((s.slot ra).tag ≠ .BA → EndsInError (.barr2warrL rd ra) s 1 1 ∧ EndsInError (.barr2warrB rd ra) s 1 1) ∧
    ∀ a, s.slot ra = .ba a →
      (a.length % 2 ≠ 0 → EndsInError (.barr2warrL rd ra) s 2 1 ∧ EndsInError (.barr2warrB rd ra) s 2 1) ∧
      (a.length % 2 = 0 → ∃ (wl wb : List Word),
        CompletesWriting (.barr2warrL rd ra) s rd (.wa wl) ∧ CompletesWriting (.barr2warrB rd ra) s rd (.wa wb) ∧
        wl.length = a.length / 2 ∧ wb.length = a.length / 2 ∧
        ∀ (i : Nat) (b0 b1 : Byte), a[2 * i]? = some b0 → a[2 * i + 1]? = some b1 →
          wl[i]? = some (b0.setWidth 16 ||| b1.setWidth 16 <<< 8) ∧
          wb[i]? = some (b0.setWidth 16 <<< 8 ||| b1.setWidth 16))

/-- R74, R75: `warr2barrL` and `warr2barrB`, on every operand, with what they leave unchanged, and the
encodings the rules give. -/
def Obligations.WordArrayToByteArray : Prop :=
  decode 0x0000000012100000#64 = .ok (.warr2barrL 1 0) ∧
  decode 0x0000000013100000#64 = .ok (.warr2barrB 1 0) ∧
  ∀ (s : State) (rd ra : SlotIx),
    ((s.slot ra).tag ≠ .WA → EndsInError (.warr2barrL rd ra) s 1 1 ∧ EndsInError (.warr2barrB rd ra) s 1 1) ∧
    ∀ a, s.slot ra = .wa a → ∃ (bl bb : List Byte),
      CompletesWriting (.warr2barrL rd ra) s rd (.ba bl) ∧ CompletesWriting (.warr2barrB rd ra) s rd (.ba bb) ∧
      bl.length = 2 * a.length ∧ bb.length = 2 * a.length ∧
      ∀ (i : Nat) (x : Word), a[i]? = some x →
        bl[2 * i]? = some (x.setWidth 8) ∧ bl[2 * i + 1]? = some ((x >>> 8).setWidth 8) ∧
        bb[2 * i]? = some ((x >>> 8).setWidth 8) ∧ bb[2 * i + 1]? = some (x.setWidth 8)

/-- R76, R77: `barr2dwarrL` and `barr2dwarrB`, on every operand, with what they leave unchanged, and the
encodings the rules give. -/
def Obligations.ByteArrayToLimbArray : Prop :=
  decode 0x0000000014100000#64 = .ok (.barr2dwarrL 1 0) ∧
  decode 0x0000000015100000#64 = .ok (.barr2dwarrB 1 0) ∧
  ∀ (s : State) (rd ra : SlotIx),
    ((s.slot ra).tag ≠ .BA → EndsInError (.barr2dwarrL rd ra) s 1 1 ∧ EndsInError (.barr2dwarrB rd ra) s 1 1) ∧
    ∀ a, s.slot ra = .ba a →
      (a.length % 4 ≠ 0 → EndsInError (.barr2dwarrL rd ra) s 2 1 ∧ EndsInError (.barr2dwarrB rd ra) s 2 1) ∧
      (a.length % 4 = 0 → ∃ (dl db : List Limb),
        CompletesWriting (.barr2dwarrL rd ra) s rd (.da dl) ∧ CompletesWriting (.barr2dwarrB rd ra) s rd (.da db) ∧
        dl.length = a.length / 4 ∧ db.length = a.length / 4 ∧
        ∀ (i : Nat) (b0 b1 b2 b3 : Byte), a[4 * i]? = some b0 → a[4 * i + 1]? = some b1 → a[4 * i + 2]? = some b2 →
          a[4 * i + 3]? = some b3 →
          dl[i]? = some (b0.setWidth 32 ||| b1.setWidth 32 <<< 8 ||| b2.setWidth 32 <<< 16 ||| b3.setWidth 32 <<< 24) ∧
          db[i]? = some (b0.setWidth 32 <<< 24 ||| b1.setWidth 32 <<< 16 ||| b2.setWidth 32 <<< 8 ||| b3.setWidth 32))

/-- R78, R79: `dwarr2barrL` and `dwarr2barrB`, on every operand, with what they leave unchanged, and the
encodings the rules give. -/
def Obligations.LimbArrayToByteArray : Prop :=
  decode 0x0000000016100000#64 = .ok (.dwarr2barrL 1 0) ∧
  decode 0x0000000017100000#64 = .ok (.dwarr2barrB 1 0) ∧
  ∀ (s : State) (rd ra : SlotIx),
    ((s.slot ra).tag ≠ .DA → EndsInError (.dwarr2barrL rd ra) s 1 1 ∧ EndsInError (.dwarr2barrB rd ra) s 1 1) ∧
    ∀ a, s.slot ra = .da a → ∃ (bl bb : List Byte),
      CompletesWriting (.dwarr2barrL rd ra) s rd (.ba bl) ∧ CompletesWriting (.dwarr2barrB rd ra) s rd (.ba bb) ∧
      bl.length = 4 * a.length ∧ bb.length = 4 * a.length ∧
      ∀ (i j : Nat) (x : Limb), a[i]? = some x → j < 4 →
        bl[4 * i + j]? = some ((x >>> (8 * j)).setWidth 8) ∧
        bb[4 * i + j]? = some ((x >>> (24 - 8 * j)).setWidth 8)

/-- Derived from R80: converting a byte, word or limb array to the other form and back by the same
variant gives it back; converting there little-endian and back big-endian reverses each group of four bytes
(this last clause the spec marks derived). -/
def Obligations.EndianConversionsAreMutuallyInverse : Prop :=
  (∀ b : List Byte, b.length % 2 = 0 → F.warr2barrL (F.barr2warrL b) = b ∧ F.warr2barrB (F.barr2warrB b) = b) ∧
  (∀ b : List Byte, b.length % 4 = 0 → F.dwarr2barrL (F.barr2dwarrL b) = b ∧ F.dwarr2barrB (F.barr2dwarrB b) = b) ∧
  (∀ w : List Word, F.barr2warrL (F.warr2barrL w) = w ∧ F.barr2warrB (F.warr2barrB w) = w) ∧
  (∀ d : List Limb, F.barr2dwarrL (F.dwarr2barrL d) = d ∧ F.barr2dwarrB (F.dwarr2barrB d) = d) ∧
  ∀ b : List Byte, b.length % 4 = 0 → (F.dwarr2barrB (F.barr2dwarrL b)).length = b.length ∧
    ∀ i j : Nat, j < 4 → 4 * i + j < b.length → (F.dwarr2barrB (F.barr2dwarrL b))[4 * i + j]? = b[4 * i + (3 - j)]?

/-! ### Composite Builder -/

/-- R93, R94: `barr2carrL` and `barr2carrB`, on every operand and every size, with what they leave
unchanged: the three checks in order, then one superword a chunk; byte `4i` to `4i+3` of chunk `k` make limb
`i` of superword `k` (`B`), or, reversed with the whole chunk, its limb `S/4 - 1 - i` (`L`). -/
def Obligations.BuilderMakesOneSuperwordAChunk : Prop :=
  decode 0x0000000820100000#64 = .ok (.barr2carrL 1 0 8) ∧
  decode 0x0000000821100000#64 = .ok (.barr2carrB 1 0 8) ∧
  ∀ (s : State) (rd ra : SlotIx) (n : Int),
    ((s.slot ra).tag ≠ .BA → EndsInError (.barr2carrL rd ra n) s 1 2 ∧ EndsInError (.barr2carrB rd ra n) s 1 2) ∧
    ∀ a, s.slot ra = .ba a →
      (n ≤ 0 ∨ n % 4 ≠ 0 → EndsInError (.barr2carrL rd ra n) s 3 2 ∧ EndsInError (.barr2carrB rd ra n) s 3 2) ∧
      (0 < n → n % 4 = 0 → (a.length : Int) % n ≠ 0 →
        EndsInError (.barr2carrL rd ra n) s 2 2 ∧ EndsInError (.barr2carrB rd ra n) s 2 2) ∧
      (0 < n → n % 4 = 0 → (a.length : Int) % n = 0 → ∃ (cl cb : Composite),
        CompletesWriting (.barr2carrL rd ra n) s rd (.ca cl) ∧ CompletesWriting (.barr2carrB rd ra n) s rd (.ca cb) ∧
        cl.length = a.length / n.toNat ∧ cb.length = a.length / n.toNat ∧
        ∀ k : Nat, k < a.length / n.toNat → ∃ (sl sb : Superword), cl[k]? = some sl ∧ cb[k]? = some sb ∧
          sl.length = n.toNat / 4 ∧ sb.length = n.toNat / 4 ∧
          ∀ (i : Nat) (b0 b1 b2 b3 : Byte), i < n.toNat / 4 → a[k * n.toNat + 4 * i]? = some b0 →
            a[k * n.toNat + 4 * i + 1]? = some b1 → a[k * n.toNat + 4 * i + 2]? = some b2 →
            a[k * n.toNat + 4 * i + 3]? = some b3 →
            sb[i]? = some
              (b0.setWidth 32 <<< 24 ||| b1.setWidth 32 <<< 16 ||| b2.setWidth 32 <<< 8 ||| b3.setWidth 32) ∧
            sl[n.toNat / 4 - 1 - i]? = some
              (b3.setWidth 32 <<< 24 ||| b2.setWidth 32 <<< 16 ||| b1.setWidth 32 <<< 8 ||| b0.setWidth 32))

/-- Derived from R91: superword `k` of a builder's result is the integer whose big-endian (`B`) or
little-endian (`L`) representation is chunk `k`. -/
def Obligations.BuiltSuperwordIsTheIntegerOfItsChunk : Prop :=
  ∀ (s : State) (rd ra : SlotIx) (n : Int) (a : List Byte), s.slot ra = .ba a → 0 < n → n % 4 = 0 →
    (a.length : Int) % n = 0 → ∃ (cl cb : Composite),
      CompletesWriting (.barr2carrL rd ra n) s rd (.ca cl) ∧ CompletesWriting (.barr2carrB rd ra n) s rd (.ca cb) ∧
      ∀ (k : Nat) (sl sb : Superword), cl[k]? = some sl → cb[k]? = some sb →
        val sl = littleEndian ((a.drop (k * n.toNat)).take n.toNat) ∧
        val sb = bigEndian ((a.drop (k * n.toNat)).take n.toNat)

/-- R95, R96: `carr2barrL` and `carr2barrB`, on every operand, ragged composites too, with what
they leave unchanged: the bytes of the superwords one after another, each superword's bytes most significant
first (`B`), or reversed as one chunk (`L`). -/
def Obligations.CompositeToByteArray : Prop :=
  decode 0x0000000022100000#64 = .ok (.carr2barrL 1 0) ∧
  decode 0x0000000023100000#64 = .ok (.carr2barrB 1 0) ∧
  ∀ (s : State) (rd ra : SlotIx),
    ((s.slot ra).tag ≠ .CA → EndsInError (.carr2barrL rd ra) s 1 2 ∧ EndsInError (.carr2barrB rd ra) s 1 2) ∧
    ∀ cs, s.slot ra = .ca cs → ∃ (bl bb : List Byte),
      CompletesWriting (.carr2barrL rd ra) s rd (.ba bl) ∧ CompletesWriting (.carr2barrB rd ra) s rd (.ba bb) ∧
      bl.length = (Value.ca cs).size ∧ bb.length = (Value.ca cs).size ∧
      ∀ (k i j : Nat) (x : Superword) (y : Limb), cs[k]? = some x → x[i]? = some y → j < 4 →
        bb[(Value.ca (cs.take k)).size + (4 * i + j)]? = some ((y >>> (24 - 8 * j)).setWidth 8) ∧
        bl[(Value.ca (cs.take k)).size + (4 * x.length - 1 - (4 * i + j))]? = some ((y >>> (24 - 8 * j)).setWidth 8)

/-- R100: `isConsistentCarr` answers in `STATUS.T`, raises TypeMismatch and nothing else, and writes no slot. -/
def Obligations.ValidatorAnswersInStatusT : Prop :=
  decode 0x0000000024020000#64 = .ok (.isConsistentCarr 2) ∧
  ∀ (s : State) (ra : SlotIx),
    ((s.slot ra).tag ≠ .CA → EndsInError (.isConsistentCarr ra) s 1 2) ∧
    ∀ c, s.slot ra = .ca c →
      ((∀ x ∈ c, ∀ y ∈ c, x.length = y.length) → CompletesSettingT (.isConsistentCarr ra) s true) ∧
      ((∃ x ∈ c, ∃ y ∈ c, x.length ≠ y.length) → CompletesSettingT (.isConsistentCarr ra) s false)

/-- Derived from R102, through the commands: building a composite from a byte array and decoding it by the same variant
gives the byte array back. The other way round, for consistent composites of superwords of `m >= 1` limbs, is
the part of R102 the spec marks derived. -/
def Obligations.CompositeRoundTrip : Prop :=
  (∀ (s : State) (rm rd ra : SlotIx) (n : Int) (a : List Byte), s.slot ra = .ba a → 0 < n → n % 4 = 0 →
    (a.length : Int) % n = 0 →
      (∃ t u, exec (.barr2carrL rm ra n) s = .next t ∧ exec (.carr2barrL rd rm) t = .next u ∧ u.slot rd = .ba a) ∧
      (∃ t u, exec (.barr2carrB rm ra n) s = .next t ∧ exec (.carr2barrB rd rm) t = .next u ∧ u.slot rd = .ba a)) ∧
  ∀ (s : State) (rm rd ra : SlotIx) (m : Nat) (c : Composite), s.slot ra = .ca c → 1 ≤ m →
    (∀ x ∈ c, x.length = m) →
      (∃ t u, exec (.carr2barrL rm ra) s = .next t ∧ exec (.barr2carrL rd rm (4 * m)) t = .next u ∧
        u.slot rd = .ca c) ∧
      (∃ t u, exec (.carr2barrB rm ra) s = .next t ∧ exec (.barr2carrB rd rm (4 * m)) t = .next u ∧
        u.slot rd = .ca c)

/-- Derived from R103: the validator answers `T = 1` for every composite a builder command has written. -/
def Obligations.BuiltCompositeIsConsistent : Prop :=
  ∀ (s t : State) (rd ra : SlotIx) (n : Int),
    (exec (.barr2carrL rd ra n) s = .next t ∨ exec (.barr2carrB rd ra n) s = .next t) → t.kind = 0 →
      CompletesSettingT (.isConsistentCarr rd) t true

/-- R104: the endianness example of the source, run as commands (`V[2] <- V[0]` in chunks of 8). -/
def Obligations.EndiannessContractExample : Prop :=
  ∀ s : State, s.slot 0 = .ba [0x01, 0x02, 0x03, 0x04, 0x05, 0x06, 0x07, 0x08] →
    CompletesWriting (.barr2carrB 2 0 8) s 2 (.ca [[0x01020304, 0x05060708]]) ∧
    CompletesWriting (.barr2carrL 2 0 8) s 2 (.ca [[0x08070605, 0x04030201]])

/-! ### Bitwise Logic Unit -/

/-- R112, R113, R114: `dwarrAnd`, `dwarrOr`, `dwarrXor`, on every pair of operands, with what they leave
unchanged: the tags, then the limb counts, then lane by lane. -/
def Obligations.BinaryLogicIsLimbWise : Prop :=
  decode 0x0000000030201000#64 = .ok (.dwarrAnd 2 0 1) ∧
  decode 0x0000000031201000#64 = .ok (.dwarrOr 2 0 1) ∧
  decode 0x0000000032201000#64 = .ok (.dwarrXor 2 0 1) ∧
  ∀ (s : State) (rd ra rb : SlotIx),
    ((s.slot ra).tag ≠ .DA ∨ (s.slot rb).tag ≠ .DA →
      EndsInError (.dwarrAnd rd ra rb) s 1 3 ∧ EndsInError (.dwarrOr rd ra rb) s 1 3 ∧
      EndsInError (.dwarrXor rd ra rb) s 1 3) ∧
    ∀ a b, s.slot ra = .da a → s.slot rb = .da b →
      (a.length ≠ b.length →
        EndsInError (.dwarrAnd rd ra rb) s 5 3 ∧ EndsInError (.dwarrOr rd ra rb) s 5 3 ∧
        EndsInError (.dwarrXor rd ra rb) s 5 3) ∧
      (a.length = b.length → ∃ (x y z : Superword),
        CompletesWriting (.dwarrAnd rd ra rb) s rd (.da x) ∧ CompletesWriting (.dwarrOr rd ra rb) s rd (.da y) ∧
        CompletesWriting (.dwarrXor rd ra rb) s rd (.da z) ∧
        x.length = a.length ∧ y.length = a.length ∧ z.length = a.length ∧
        ∀ (i : Nat) (p q : Limb), a[i]? = some p → b[i]? = some q →
          x[i]? = some (p &&& q) ∧ y[i]? = some (p ||| q) ∧ z[i]? = some (p ^^^ q))

/-- R115: `dwarrNot`, on every operand, with what it leaves unchanged: each limb becomes `0xFFFFFFFF` less
itself. -/
def Obligations.NotIsLimbWiseComplement : Prop :=
  decode 0x0000000033100000#64 = .ok (.dwarrNot 1 0) ∧
  ∀ (s : State) (rd ra : SlotIx),
    ((s.slot ra).tag ≠ .DA → EndsInError (.dwarrNot rd ra) s 1 3) ∧
    ∀ a, s.slot ra = .da a → ∃ x : Superword, CompletesWriting (.dwarrNot rd ra) s rd (.da x) ∧ x.length = a.length ∧
      ∀ (i : Nat) (p : Limb), a[i]? = some p → x[i]? = some (0xFFFFFFFF#32 - p)

/-- Derived from R116: the laws of the unit. Each command is the same bitwise operation on the integers. -/
def Obligations.LogicIsBitwiseOnIntegers : Prop :=
  ∀ a b : Superword, a.length = b.length →
    val (F.dwarrAnd a b) = val a &&& val b ∧ val (F.dwarrOr a b) = val a ||| val b ∧
    val (F.dwarrXor a b) = val a ^^^ val b ∧ val (F.dwarrNot a) = 2 ^ width a - 1 - val a ∧
    F.dwarrNot (F.dwarrNot a) = a ∧ F.dwarrXor (F.dwarrXor a b) b = a

/-- R59: all source slots are read before the destination is written. A command with any other destination,
be it one of its sources, ends alike and writes the same value; and `dwarrXor Vd, Va, Va` gives all-zero
limbs. -/
def Obligations.SourcesAreReadBeforeTheDestinationIsWritten : Prop :=
  (∀ (i : Instr) (s t u : State) (r r' : SlotIx) (T : Tag), destination i = some (r, T) →
    exec i s = .next t → exec (retarget r' i) s = .next u →
      u.kind = t.kind ∧ u.comp = t.comp ∧ (t.kind = 0 → u.slot r' = t.slot r)) ∧
  ∀ (s : State) (rd ra : SlotIx) (a : Superword), s.slot ra = .da a →
    CompletesWriting (.dwarrXor rd ra ra) s rd (.da (List.replicate a.length 0))

/-! ### Shift/Rotate Engine -/

/-- Derived from R126 to R128: the three 1-bit shifts take each carry from the pre-shift neighbour (limbs beyond the ends
being 0, or the sign). The integers they compute are the clauses the spec marks derived. -/
def Obligations.OneBitShiftsCarryAcrossLimbs : Prop :=
  ∀ s : Superword,
    (lsh1 s).length = s.length ∧ (rshz1 s).length = s.length ∧ (rshs1 s).length = s.length ∧
    (∀ i : Nat, i < s.length →
      (lsh1 s).getD i 0 = s.getD i 0 <<< 1 ||| s.getD (i + 1) 0 >>> 31 ∧
      (rshz1 s).getD i 0 = s.getD i 0 >>> 1 ||| (if i = 0 then (0 : Limb) else s.getD (i - 1) 0 <<< 31) ∧
      (rshs1 s).getD i 0 =
        s.getD i 0 >>> 1 ||| (if i = 0 then s.getD 0 0 &&& 0x80000000 else s.getD (i - 1) 0 <<< 31)) ∧
    val (lsh1 s) = 2 * val s % 2 ^ width s ∧ val (rshz1 s) = val s / 2 ∧ sval (rshs1 s) = sval s / 2

/-- Derived from R129 and R130: the 1-bit rotates re-insert the bit that fell off at the other end, and are
inverse to each other. -/
def Obligations.OneBitRotatesReinsertTheBit : Prop :=
  ∀ s : Superword,
    (lrot1 s).length = s.length ∧ (rrot1 s).length = s.length ∧
    val (lrot1 s) = 2 * val s % 2 ^ width s + val s / 2 ^ (width s - 1) ∧
    (s ≠ [] → val (rrot1 s) = val s / 2 + val s % 2 * 2 ^ (width s - 1)) ∧
    rrot1 (lrot1 s) = s ∧ lrot1 (rrot1 s) = s

/-- R132, R133, R134, with R131: the three shifts, on every operand and every count, with what they leave
unchanged: the tag, then the count, then the 1-bit step repeated `n` times, which is multiplication by `2^n`
modulo `2^W`, `floor(val / 2^n)` and `floor(sval / 2^n)`. -/
def Obligations.ShiftsRepeatTheOneBitStep : Prop :=
  decode 0x0000000340100000#64 = .ok (.dwarrLShift 1 0 3) ∧
  decode 0x0000000341100000#64 = .ok (.dwarrRShiftZ 1 0 3) ∧
  decode 0x0000000342100000#64 = .ok (.dwarrRShiftS 1 0 3) ∧
  ∀ (s : State) (rd ra : SlotIx) (n : Int),
    ((s.slot ra).tag ≠ .DA →
      EndsInError (.dwarrLShift rd ra n) s 1 4 ∧ EndsInError (.dwarrRShiftZ rd ra n) s 1 4 ∧
      EndsInError (.dwarrRShiftS rd ra n) s 1 4) ∧
    ∀ a, s.slot ra = .da a →
      (n < 0 →
        EndsInError (.dwarrLShift rd ra n) s 4 4 ∧ EndsInError (.dwarrRShiftZ rd ra n) s 4 4 ∧
        EndsInError (.dwarrRShiftS rd ra n) s 4 4) ∧
      (0 ≤ n →
        CompletesWriting (.dwarrLShift rd ra n) s rd (.da (repeatStep lsh1 n.toNat a)) ∧
        CompletesWriting (.dwarrRShiftZ rd ra n) s rd (.da (repeatStep rshz1 n.toNat a)) ∧
        CompletesWriting (.dwarrRShiftS rd ra n) s rd (.da (repeatStep rshs1 n.toNat a)) ∧
        repeatStep lsh1 n.toNat a = limbs a.length (val a * 2 ^ n.toNat % 2 ^ width a) ∧
        repeatStep rshz1 n.toNat a = limbs a.length (val a / 2 ^ n.toNat) ∧
        repeatStep rshs1 n.toNat a = limbs a.length ((sval a / 2 ^ n.toNat) % 2 ^ width a).toNat)

/-- R135, R136, with R131: the two rotates, on every operand and every count, with what they leave unchanged:
the tag, then the 1-bit step repeated, a negative count turning the other way by its absolute value. -/
def Obligations.RotatesRepeatTheOneBitStep : Prop :=
  decode 0x0000000443100000#64 = .ok (.dwarrLRotate 1 0 4) ∧
  decode 0x0000000444100000#64 = .ok (.dwarrRRotate 1 0 4) ∧
  ∀ (s : State) (rd ra : SlotIx) (n : Int),
    ((s.slot ra).tag ≠ .DA →
      EndsInError (.dwarrLRotate rd ra n) s 1 4 ∧ EndsInError (.dwarrRRotate rd ra n) s 1 4) ∧
    ∀ a, s.slot ra = .da a →
      (0 ≤ n →
        CompletesWriting (.dwarrLRotate rd ra n) s rd (.da (repeatStep lrot1 n.toNat a)) ∧
        CompletesWriting (.dwarrRRotate rd ra n) s rd (.da (repeatStep rrot1 n.toNat a))) ∧
      (n < 0 →
        CompletesWriting (.dwarrLRotate rd ra n) s rd (.da (repeatStep rrot1 (-n).toNat a)) ∧
        CompletesWriting (.dwarrRRotate rd ra n) s rd (.da (repeatStep lrot1 (-n).toNat a)))

/-- Derived from R141: a shift count is not reduced modulo anything: at or beyond the width the bits are gone,
or all are the sign; rotates by `n` and by `n mod W` agree. -/
def Obligations.CountsAtOrBeyondTheWidth : Prop :=
  ∀ (s : State) (rd ra : SlotIx) (n : Nat) (a : Superword), s.slot ra = .da a →
    (width a ≤ n →
      CompletesWriting (.dwarrLShift rd ra n) s rd (.da (List.replicate a.length 0)) ∧
      CompletesWriting (.dwarrRShiftZ rd ra n) s rd (.da (List.replicate a.length 0))) ∧
    (width a - 1 ≤ n →
      CompletesWriting (.dwarrRShiftS rd ra n) s rd
        (.da (List.replicate a.length (if sval a < 0 then 0xFFFFFFFF else 0)))) ∧
    (a ≠ [] →
      CompletesWriting (.dwarrLRotate rd ra n) s rd (.da (repeatStep lrot1 (n % width a) a)) ∧
      CompletesWriting (.dwarrRRotate rd ra n) s rd (.da (repeatStep rrot1 (n % width a) a)))

/-- Derived from R143: shift identity and composition, full rotation closure, the rotates inverse to each
other and additive. (Clauses (a) to (c) are the source's; the rest the spec marks derived.) -/
def Obligations.ShiftAndRotateLaws : Prop :=
  ∀ (x : Superword) (a b : Nat),
    F.lsh x 0 = x ∧ F.rshz x 0 = x ∧ F.rshs x 0 = x ∧
    F.lsh x (a + b) = F.lsh (F.lsh x a) b ∧ F.rshz x (a + b) = F.rshz (F.rshz x a) b ∧
    F.rshs x (a + b) = F.rshs (F.rshs x a) b ∧
    F.lrot x (32 * x.length) = x ∧ F.rrot x (32 * x.length) = x ∧
    F.lrot (F.rrot x a) a = x ∧ F.lrot (F.lrot x a) b = F.lrot x (a + b)

/-- R145: the rotate count `-2^31` turns the other way by the natural number `2^31` (equivalently `2^31 mod W`
1-bit steps); a shift by it raises CountError. -/
def Obligations.MostNegativeCount : Prop :=
  ∀ (s : State) (rd ra : SlotIx) (a : Superword), s.slot ra = .da a →
    CompletesWriting (.dwarrLRotate rd ra (-2147483648)) s rd (.da (repeatStep rrot1 (2 ^ 31) a)) ∧
    CompletesWriting (.dwarrRRotate rd ra (-2147483648)) s rd (.da (repeatStep lrot1 (2 ^ 31) a)) ∧
    CompletesWriting (.dwarrLRotate rd ra (-2147483648)) s rd (.da (repeatStep rrot1 (2 ^ 31 % width a) a)) ∧
    CompletesWriting (.dwarrRRotate rd ra (-2147483648)) s rd (.da (repeatStep lrot1 (2 ^ 31 % width a) a)) ∧
    EndsInError (.dwarrLShift rd ra (-2147483648)) s 4 4 ∧
    EndsInError (.dwarrRShiftZ rd ra (-2147483648)) s 4 4 ∧
    EndsInError (.dwarrRShiftS rd ra (-2147483648)) s 4 4

/-- Derived from R144: on one limb the unit is a plain 32-bit shifter and rotator; on none every command gives
`DA[]`. -/
def Obligations.SmallSuperwords : Prop :=
  ∀ (s : State) (rd ra : SlotIx) (n : Nat),
    (∀ x, s.slot ra = .da [x] →
      CompletesWriting (.dwarrLShift rd ra n) s rd (.da [x <<< n]) ∧
      CompletesWriting (.dwarrRShiftZ rd ra n) s rd (.da [x >>> n]) ∧
      CompletesWriting (.dwarrRShiftS rd ra n) s rd (.da [x.sshiftRight n]) ∧
      CompletesWriting (.dwarrLRotate rd ra n) s rd (.da [x.rotateLeft n]) ∧
      CompletesWriting (.dwarrRRotate rd ra n) s rd (.da [x.rotateRight n])) ∧
    (s.slot ra = .da [] →
      CompletesWriting (.dwarrLShift rd ra n) s rd (.da []) ∧ CompletesWriting (.dwarrRShiftZ rd ra n) s rd (.da []) ∧
      CompletesWriting (.dwarrRShiftS rd ra n) s rd (.da []) ∧ CompletesWriting (.dwarrLRotate rd ra n) s rd (.da []) ∧
      CompletesWriting (.dwarrRRotate rd ra n) s rd (.da []))

/-- R146: the carry-chain examples as corrected; the pairs the source prints for 11 and 59 are not what the
rules give. -/
def Obligations.CarryChainExamplesAsCorrected : Prop :=
  ∀ s : State, s.slot 0 = .da [0, 0, 0, 0, 0, 0, 0, 1] →
    CompletesWriting (.dwarrLShift 1 0 3) s 1 (.da [0, 0, 0, 0, 0, 0, 0, 8]) ∧
    CompletesWriting (.dwarrLShift 1 0 11) s 1 (.da [0, 0, 0, 0, 0, 0, 0, 0x800]) ∧
    CompletesWriting (.dwarrLShift 1 0 59) s 1 (.da [0, 0, 0, 0, 0, 0, 0x08000000, 0]) ∧
    CompletesWriting (.dwarrLShift 1 0 35) s 1 (.da [0, 0, 0, 0, 0, 0, 8, 0]) ∧
    CompletesWriting (.dwarrLShift 1 0 227) s 1 (.da [8, 0, 0, 0, 0, 0, 0, 0])

/-! ### Rules about every command -/

/-- Derived from R168 (the table of which command can raise which kind): no command raises another kind. -/
def Obligations.CommandRaisesOnlyItsKinds : Prop :=
  ∀ (i : Instr) (s t : State), exec i s = .next t → t.kind = 0 ∨ t.kind ∈ mayRaise i

/-- Derived from R171: errors are precise. After a command that ends in an error the state is the state before
it but for `STATUS.KIND` and `STATUS.COMP`, and `COMP` is the unit of the command, `opcode[7:4]` (R63). -/
def Obligations.ErrorsArePrecise : Prop :=
  ∀ (i : Instr) (s t : State), exec i s = .next t → t.kind ≠ 0 →
    t = { s with status := t.status } ∧ t.flagT = s.flagT ∧ t.statusRest = s.statusRest ∧
      t.comp = (encode i).extractLsb' 28 4

/-- R58: a command writes at most one slot, its destination, and only when it succeeds; the tag of what it
writes is fixed by the command; `isConsistentCarr` writes none. -/
def Obligations.OnlyTheDestinationIsWrittenAndOnlyOnSuccess : Prop :=
  ∀ (i : Instr) (s t : State), exec i s = .next t →
    (∀ j, t.slot j ≠ s.slot j → t.kind = 0 ∧ ∃ T, destination i = some (j, T)) ∧
    (∀ r T, destination i = some (r, T) → t.kind = 0 → (t.slot r).tag = T)

/-- R19: `STATUS.T` is written by a successful `isConsistentCarr` and by nothing else; a step changes it only
so, or by reset, which sets it to 0; and no command reads it. -/
def Obligations.OnlyTheValidatorWritesT : Prop :=
  (∀ (i : Instr) (s t : State), exec i s = .next t → t.flagT ≠ s.flagT →
    (∃ ra, i = .isConsistentCarr ra) ∧ t.kind = 0) ∧
  (∀ s t : State, step s = .next t → t.flagT ≠ s.flagT →
    ∃ x rest, s.pending = x :: rest ∧
      (x = .hreset ∧ t.flagT = false ∨
        ∃ c ra, x = .hcmd c ∧ decode c = .ok (.isConsistentCarr ra) ∧ t.kind = 0)) ∧
  State.reset.flagT = false ∧
  ∀ (i : Instr) (s t u : State) (b : Bool), exec i s = .next t → exec i (s.setT b) = .next u →
    u.kind = t.kind ∧ u.comp = t.comp ∧ (∀ j, u.slot j = t.slot j) ∧
      ((∃ ra, i = .isConsistentCarr ra) → t.kind = 0 → u.flagT = t.flagT)

/-- R23: "the result of a command depends only on the command word and on the values of the slots it names":
two states that agree on its sources, whatever their `STATUS` and other slots, give the same outcome. -/
def Obligations.ResultDependsOnlyOnTheNamedSlots : Prop :=
  ∀ (i : Instr) (s s' t t' : State), (∀ j ∈ sources i, s.slot j = s'.slot j) →
    exec i s = .next t → exec i s' = .next t' →
      t.kind = t'.kind ∧ t.comp = t'.comp ∧
      (t.kind = 0 → (∀ r T, destination i = some (r, T) → t.slot r = t'.slot r) ∧
        (destination i = none → t.flagT = t'.flagT))

/-- Derived from R37: repeating a command on unchanged source slots gives the same destination value and the
same `STATUS`: the second time nothing at all changes. -/
def Obligations.RepeatingACommandChangesNothingMore : Prop :=
  ∀ (i : Instr) (s t u : State), exec i s = .next t → (∀ j ∈ sources i, t.slot j = s.slot j) →
    exec i t = .next u → u = t

/-! ### Invariants -/

/-- Derived from R18 and R168: `STATUS` holds a pair (`KIND`, `COMP`) the hardware produces and 0 in bits 31:9; every step keeps
that, from every state where it holds. -/
def Obligations.StepKeepsStatusLegal : Prop :=
  ∀ s t : State, StatusLegal s → step s = .next t → StatusLegal t

/-- Derived from R24: `STATUS` is legal right after reset. -/
def Obligations.ResetStatusIsLegal : Prop := StatusLegal State.reset

/-- Derived from R17 ("No command needs the check: if the operands of a command fit, so does its result"):
every step keeps every slot within its capacity, for every capacity, and so for the machine's own. -/
def Obligations.StepKeepsSlotsWithinCapacity : Prop :=
  (∀ (cap : Option Nat) (s t : State), SlotsFit cap s → stepWith cap s = .next t → SlotsFit cap t) ∧
  ∀ s t : State, SlotsFit Config.slotBytes s → step s = .next t → SlotsFit Config.slotBytes t

/-- Derived from R17 and R24: unset slots fit any capacity, so the invariant holds right after reset. -/
def Obligations.ResetSlotsFit : Prop := ∀ cap : Option Nat, SlotsFit cap State.reset
end

