-- ==== Sys2Proof/Laws/Integers.lean ====
section
/-! SUPPORT. A superword and its integer (00_scope.md R7): `val` and `limbs` are inverse to each other at a
given number of limbs, so two superwords of one length and one value are equal. -/

namespace Sys2Proof.Machine

@[simp] theorem val_nil : val [] = 0 := rfl
@[simp] theorem width_nil : width [] = 0 := rfl
@[simp] theorem width_cons (x : Limb) (s : Superword) : width (x :: s) = 32 + width s := by
  simp [width]; omega

theorem foldl_val (s : Superword) (a : Nat) :
    s.foldl (fun v x => v * 2 ^ 32 + x.toNat) a = a * 2 ^ width s + val s := by
  induction s generalizing a with
  | nil => simp
  | cons x rest ih =>
    have h := ih (0 * 2 ^ 32 + x.toNat)
    have e : val (x :: rest) = rest.foldl (fun v x => v * 2 ^ 32 + x.toNat) (0 * 2 ^ 32 + x.toNat) := rfl
    rw [e, h, List.foldl_cons, ih, width_cons, Nat.pow_add]
    ring

/-- The first limb is the most significant. -/
theorem val_cons (x : Limb) (s : Superword) : val (x :: s) = x.toNat * 2 ^ width s + val s := by
  have := foldl_val s (0 * 2 ^ 32 + x.toNat)
  simpa [val] using this

theorem val_lt (s : Superword) : val s < 2 ^ width s := by
  induction s with
  | nil => simp
  | cons x rest ih =>
    have hx : x.toNat + 1 ≤ 2 ^ 32 := x.isLt
    have := Nat.mul_le_mul_right (2 ^ width rest) hx
    rw [val_cons, width_cons, Nat.pow_add]
    have e : (x.toNat + 1) * 2 ^ width rest = x.toNat * 2 ^ width rest + 2 ^ width rest := by ring
    omega

@[simp] theorem length_limbs (n v : Nat) : (limbs n v).length = n := by simp [limbs]

@[simp] theorem limbs_zero (v : Nat) : limbs 0 v = [] := rfl

theorem limbs_succ (n v : Nat) : limbs (n + 1) v = BitVec.ofNat 32 (v / 2 ^ (32 * n)) :: limbs n v := by
  unfold limbs
  rw [List.range_succ_eq_map]
  simp only [List.map_cons, List.map_map]
  congr 1
  apply List.map_congr_left
  intro i hi
  have : n - (i + 1) = n - 1 - i := by omega
  simp [Function.comp, this]

theorem val_limbs (n v : Nat) : val (limbs n v) = v % 2 ^ (32 * n) := by
  induction n with
  | zero => simp [Nat.mod_one]
  | succ n ih =>
    have hw : width (limbs n v) = 32 * n := by simp [width]
    rw [limbs_succ, val_cons, ih, hw, BitVec.toNat_ofNat, Nat.mul_succ, Nat.pow_add, Nat.mod_mul]
    ring

theorem limbs_congr {n v w : Nat} (h : v % 2 ^ (32 * n) = w % 2 ^ (32 * n)) : limbs n v = limbs n w := by
  induction n with
  | zero => rfl
  | succ n ih =>
    have e : 32 * (n + 1) = 32 * n + 32 := by ring
    rw [e, Nat.pow_add, Nat.mod_mul, Nat.mod_mul] at h
    have hp : 0 < 2 ^ (32 * n) := Nat.two_pow_pos _
    have hv := Nat.mod_lt v hp
    have hw := Nat.mod_lt w hp
    have hlow : v % 2 ^ (32 * n) = w % 2 ^ (32 * n) := by
      have := congrArg (· % 2 ^ (32 * n)) h
      simpa [Nat.add_mul_mod_self_left] using this
    have hhigh : v / 2 ^ (32 * n) % 2 ^ 32 = w / 2 ^ (32 * n) % 2 ^ 32 := by
      rw [hlow] at h
      exact Nat.eq_of_mul_eq_mul_left hp (Nat.add_left_cancel h)
    rw [limbs_succ, limbs_succ, ih hlow]
    congr 1
    apply BitVec.eq_of_toNat_eq
    simpa using hhigh

theorem limbs_val (s : Superword) : limbs s.length (val s) = s := by
  induction s with
  | nil => rfl
  | cons x rest ih =>
    have hw : width rest = 32 * rest.length := rfl
    have hl := val_lt rest
    have hp : 0 < 2 ^ width rest := Nat.two_pow_pos _
    rw [List.length_cons, limbs_succ, val_cons, ← hw]
    congr 1
    · apply BitVec.eq_of_toNat_eq
      rw [BitVec.toNat_ofNat, Nat.add_comm, Nat.add_mul_div_right _ _ hp, Nat.div_eq_of_lt hl, Nat.zero_add]
      exact Nat.mod_eq_of_lt x.isLt
    · refine (limbs_congr ?_).trans ih
      rw [← hw, Nat.add_comm, Nat.add_mul_mod_self_right]

/-- Two superwords of one length and one value are equal. -/
theorem eq_of_val_eq {s t : Superword} (hl : s.length = t.length) (hv : val s = val t) : s = t := by
  rw [← limbs_val s, ← limbs_val t, hl, hv]

/-- A superword of the right length and value is `limbs` of it. -/
theorem eq_limbs {s : Superword} {n v : Nat} (hl : s.length = n) (hv : val s = v % 2 ^ (32 * n)) :
    s = limbs n v :=
  eq_of_val_eq (by simp [hl]) (by rw [hv, val_limbs])

end Sys2Proof.Machine
end

