-- ==== Sys2Proof/Laws/Blu.lean ====
section
/-! SUPPORT. The limb-wise functions of the Bitwise Logic Unit as operations on the integers their operands
represent (43_bitwise_logic.md R116). -/

namespace Sys2Proof.Machine

/-- A limb-wise operation that is bitwise on limbs is the same operation on the integers. -/
theorem val_zipWith {op : Nat → Nat → Nat} {p : Bool → Bool → Bool} {g : Limb → Limb → Limb}
    (hp : p false false = false) (hop : ∀ m n i, (op m n).testBit i = p (m.testBit i) (n.testBit i))
    (hg : ∀ x y : Limb, (g x y).toNat = op x.toNat y.toNat) {a b : Superword} (h : a.length = b.length) :
    val (List.zipWith g a b) = op (val a) (val b) := by
  induction a generalizing b with
  | nil =>
    cases b with
    | nil => apply Nat.eq_of_testBit_eq; intro i; simp [hop, hp]
    | cons => simp at h
  | cons x a ih =>
    cases b with
    | nil => simp at h
    | cons y b =>
      have hlen : a.length = b.length := by simpa using h
      have hz : width (List.zipWith g a b) = width a := by simp [width, hlen]
      have hw : width b = width a := by simp [width, hlen]
      rw [List.zipWith_cons_cons, val_cons, val_cons, val_cons, ih hlen, hz, hw, hg]
      have la := val_lt a
      have lb := val_lt b
      rw [hw] at lb
      have lo : op (val a) (val b) < 2 ^ width a := by
        apply Nat.lt_pow_two_of_testBit
        intro j hj
        have hle : 2 ^ width a ≤ 2 ^ j := Nat.pow_le_pow_right (by omega) hj
        rw [hop, Nat.testBit_lt_two_pow (lt_of_lt_of_le la hle), Nat.testBit_lt_two_pow (lt_of_lt_of_le lb hle), hp]
      apply Nat.eq_of_testBit_eq
      intro i
      rw [hop, Nat.mul_comm, Nat.mul_comm x.toNat, Nat.mul_comm y.toNat, Nat.testBit_two_pow_mul_add _ lo,
        Nat.testBit_two_pow_mul_add _ la, Nat.testBit_two_pow_mul_add _ lb]
      split <;> rw [hop]

/-- The complement, limb by limb, is `2^W - 1` less the integer. -/
theorem val_dwarrNot (a : Superword) : val (F.dwarrNot a) = 2 ^ width a - 1 - val a := by
  induction a with
  | nil => rfl
  | cons x a ih =>
    have hw : width (F.dwarrNot a) = width a := by simp [width, F.dwarrNot]
    show val (~~~ x :: F.dwarrNot a) = _
    rw [val_cons, val_cons, ih, hw, BitVec.toNat_not, width_cons, Nat.pow_add]
    have := val_lt a
    have hx := x.isLt
    have : (2^32 - 1 - x.toNat) * 2 ^ width a + x.toNat * 2 ^ width a + 2 ^ width a = 2 ^ 32 * 2 ^ width a := by
      rw [← Nat.add_mul, ← Nat.succ_mul]; congr 1; omega
    omega

end Sys2Proof.Machine
end

