-- ==== Sys2Proof/Laws/Evc.lean ====
section
/-! SUPPORT. The Endian View Converter's pure functions (41_endian_view_converter.md R70): lengths,
elements in the spec's own formulas, and the round trips of R80. -/

namespace Sys2Proof.Machine

/-! ### Bytes of a unit -/

theorem getLsbD_wordOfBytes (hi lo : Byte) (i : Nat) :
    (wordOfBytes hi lo).getLsbD i = if i < 8 then lo.getLsbD i else hi.getLsbD (i - 8) :=
  BitVec.getLsbD_append (x := hi) (y := lo)

theorem getLsbD_limbOfBytes (b3 b2 b1 b0 : Byte) (i : Nat) :
    (limbOfBytes b3 b2 b1 b0).getLsbD i =
      if i < 8 then b0.getLsbD i
      else if i < 16 then b1.getLsbD (i - 8)
      else if i < 24 then b2.getLsbD (i - 16)
      else b3.getLsbD (i - 24) := by
  refine (BitVec.getLsbD_append (x := b3 ++ b2 ++ b1) (y := b0) (i := i)).trans ?_
  rw [BitVec.getLsbD_append (x := b3 ++ b2) (y := b1), BitVec.getLsbD_append (x := b3) (y := b2)]
  have e1 : i - 8 - 8 = i - 16 := by omega
  have e2 : i - 16 - 8 = i - 24 := by omega
  rw [e1, e2]
  by_cases h1 : i < 8
  · simp [h1]
  · by_cases h2 : i < 16
    · have : i - 8 < 8 := by omega
      simp [h1, h2, this]
    · by_cases h3 : i < 24
      · have a : ¬ i - 8 < 8 := by omega
        have b : i - 16 < 8 := by omega
        simp [h1, h2, h3, a, b]
      · have a : ¬ i - 8 < 8 := by omega
        have b : ¬ i - 16 < 8 := by omega
        simp [h1, h2, h3, a, b]

theorem getLsbD_wordByte (w : Word) (k i : Nat) :
    (wordByte w k).getLsbD i = (decide (i < 8) && w.getLsbD (8 * k + i)) := by simp [wordByte]

theorem getLsbD_limbByte (x : Limb) (k i : Nat) :
    (limbByte x k).getLsbD i = (decide (i < 8) && x.getLsbD (8 * k + i)) := by simp [limbByte]

/-- `{hi, lo}` is `lo | (hi << 8)`, the formula of R70. -/
theorem wordOfBytes_eq_or (hi lo : Byte) :
    wordOfBytes hi lo = lo.setWidth 16 ||| hi.setWidth 16 <<< 8 := by
  apply BitVec.eq_of_getLsbD_eq
  intro i h
  rw [getLsbD_wordOfBytes]
  by_cases h8 : i < 8
  · simp [h, h8]
  · have : 8 ≤ i := by omega
    have z : lo.getLsbD i = false := BitVec.getLsbD_of_ge lo i this
    simp only [BitVec.getLsbD_or, BitVec.getLsbD_shiftLeft, BitVec.getLsbD_setWidth, z, h8]
    have : i - 8 < 16 := by omega
    simp [h, this]

/-- `{b3, b2, b1, b0}` is `b0 | (b1 << 8) | (b2 << 16) | (b3 << 24)`, the formula of R70. -/
theorem limbOfBytes_eq_or (b3 b2 b1 b0 : Byte) :
    limbOfBytes b3 b2 b1 b0 =
      b0.setWidth 32 ||| b1.setWidth 32 <<< 8 ||| b2.setWidth 32 <<< 16 ||| b3.setWidth 32 <<< 24 := by
  apply BitVec.eq_of_getLsbD_eq
  intro i h
  rw [getLsbD_limbOfBytes]
  simp only [BitVec.getLsbD_or, BitVec.getLsbD_shiftLeft, BitVec.getLsbD_setWidth, h, decide_true, Bool.true_and]
  have l1 : i - 8 < 32 := by omega
  have l2 : i - 16 < 32 := by omega
  have l3 : i - 24 < 32 := by omega
  simp only [l1, l2, l3, decide_true, Bool.true_and]
  have z0 : ¬ i < 8 → b0.getLsbD i = false := fun g => BitVec.getLsbD_of_ge b0 i (by omega)
  have z1 : ¬ i < 16 → b1.getLsbD (i - 8) = false := fun g => BitVec.getLsbD_of_ge b1 _ (by omega)
  have z2 : ¬ i < 24 → b2.getLsbD (i - 16) = false := fun g => BitVec.getLsbD_of_ge b2 _ (by omega)
  by_cases h1 : i < 8
  · have a : i < 16 := by omega
    have b : i < 24 := by omega
    simp [h1, a, b]
  · by_cases h2 : i < 16
    · have b : i < 24 := by omega
      simp [h1, h2, b, z0 h1]
    · by_cases h3 : i < 24
      · simp [h1, h2, h3, z0 h1, z1 h2]
      · simp [h1, h2, h3, z0 h1, z1 h2, z2 h3]

theorem wordByte_zero (w : Word) : wordByte w 0 = w.setWidth 8 := by
  apply BitVec.eq_of_getLsbD_eq; intro i h; rw [getLsbD_wordByte]; simp [h]
theorem wordByte_one (w : Word) : wordByte w 1 = (w >>> 8).setWidth 8 := by
  apply BitVec.eq_of_getLsbD_eq; intro i h; rw [getLsbD_wordByte]; simp [h]
theorem limbByte_eq (x : Limb) (k : Nat) : limbByte x k = (x >>> (8 * k)).setWidth 8 := by
  apply BitVec.eq_of_getLsbD_eq; intro i h; rw [getLsbD_limbByte]; simp [h]

@[simp] theorem wordByte_wordOfBytes_zero (hi lo : Byte) : wordByte (wordOfBytes hi lo) 0 = lo := by
  apply BitVec.eq_of_getLsbD_eq; intro i h; rw [getLsbD_wordByte, getLsbD_wordOfBytes]; simp [h]
@[simp] theorem wordByte_wordOfBytes_one (hi lo : Byte) : wordByte (wordOfBytes hi lo) 1 = hi := by
  apply BitVec.eq_of_getLsbD_eq; intro i h; rw [getLsbD_wordByte, getLsbD_wordOfBytes]; simp [h]
@[simp] theorem wordOfBytes_wordByte (w : Word) : wordOfBytes (wordByte w 1) (wordByte w 0) = w := by
  apply BitVec.eq_of_getLsbD_eq
  intro i h
  rw [getLsbD_wordOfBytes, getLsbD_wordByte, getLsbD_wordByte]
  by_cases h8 : i < 8
  · simp [h8]
  · have a : i - 8 < 8 := by omega
    have b : 8 + (i - 8) = i := by omega
    simp [h8, a, b]

theorem limbByte_limbOfBytes (b3 b2 b1 b0 : Byte) (k : Nat) (hk : k < 4) :
    limbByte (limbOfBytes b3 b2 b1 b0) k = if k = 0 then b0 else if k = 1 then b1 else if k = 2 then b2 else b3 := by
  apply BitVec.eq_of_getLsbD_eq
  intro i h
  rw [getLsbD_limbByte, getLsbD_limbOfBytes]
  have c : k = 0 ∨ k = 1 ∨ k = 2 ∨ k = 3 := by omega
  rcases c with rfl | rfl | rfl | rfl
  · simp [h]
  · have a : ¬ 8 + i < 8 := by omega
    have b : 8 + i < 16 := by omega
    simp [h, b]
  · have a : ¬ 16 + i < 8 := by omega
    have b : ¬ 16 + i < 16 := by omega
    have d : 16 + i < 24 := by omega
    simp [h, a, d]
  · have a : ¬ 24 + i < 8 := by omega
    have b : ¬ 24 + i < 16 := by omega
    simp [h, a, b]

@[simp] theorem limbByte_limbOfBytes_zero (b3 b2 b1 b0 : Byte) : limbByte (limbOfBytes b3 b2 b1 b0) 0 = b0 := by
  simp [limbByte_limbOfBytes]
@[simp] theorem limbByte_limbOfBytes_one (b3 b2 b1 b0 : Byte) : limbByte (limbOfBytes b3 b2 b1 b0) 1 = b1 := by
  simp [limbByte_limbOfBytes]
@[simp] theorem limbByte_limbOfBytes_two (b3 b2 b1 b0 : Byte) : limbByte (limbOfBytes b3 b2 b1 b0) 2 = b2 := by
  simp [limbByte_limbOfBytes]
@[simp] theorem limbByte_limbOfBytes_three (b3 b2 b1 b0 : Byte) : limbByte (limbOfBytes b3 b2 b1 b0) 3 = b3 := by
  simp [limbByte_limbOfBytes]

@[simp] theorem limbOfBytes_limbByte (x : Limb) :
    limbOfBytes (limbByte x 3) (limbByte x 2) (limbByte x 1) (limbByte x 0) = x := by
  apply BitVec.eq_of_getLsbD_eq
  intro i h
  rw [getLsbD_limbOfBytes]
  simp only [getLsbD_limbByte]
  by_cases h1 : i < 8
  · simp [h1]
  · by_cases h2 : i < 16
    · have a : i - 8 < 8 := by omega
      have b : 8 * 1 + (i - 8) = i := by omega
      simp [h1, h2, a, b]
    · by_cases h3 : i < 24
      · have a : i - 16 < 8 := by omega
        have b : 8 * 2 + (i - 16) = i := by omega
        simp [h1, h2, h3, a, b]
      · have a : i - 24 < 8 := by omega
        have b : 8 * 3 + (i - 24) = i := by omega
        simp [h1, h2, h3, a, b]

/-! ### Lists of blocks -/

/-- Element `m * i + j` of a concatenation of blocks of `m` is element `j` of block `i`. -/
theorem getElem?_flatMap_block {α β : Type} {f : α → List β} {m : Nat} (hf : ∀ x, (f x).length = m)
    (l : List α) (i j : Nat) (hj : j < m) : (l.flatMap f)[m * i + j]? = (l[i]?).bind fun x => (f x)[j]? := by
  induction l generalizing i with
  | nil => simp
  | cons x rest ih =>
    cases i with
    | zero => simp [List.getElem?_append, hf, hj]
    | succ i =>
      have h1 : ¬ m * (i + 1) + j < m := by
        have : m * (i + 1) = m * i + m := Nat.mul_succ m i
        omega
      have h2 : m * (i + 1) + j - m = m * i + j := by
        have : m * (i + 1) = m * i + m := Nat.mul_succ m i
        omega
      simp [List.getElem?_append, hf, h1, h2, ih]

theorem length_flatMap_block {α β : Type} {f : α → List β} {m : Nat} (hf : ∀ x, (f x).length = m) (l : List α) :
    (l.flatMap f).length = m * l.length := by
  induction l with
  | nil => simp
  | cons x rest ih => simp [hf, ih, Nat.mul_add, Nat.add_comm]

namespace F

@[simp] theorem length_warr2barrL (w : List Word) : (warr2barrL w).length = 2 * w.length :=
  length_flatMap_block (m := 2) (fun _ => rfl) w
@[simp] theorem length_warr2barrB (w : List Word) : (warr2barrB w).length = 2 * w.length :=
  length_flatMap_block (m := 2) (fun _ => rfl) w
@[simp] theorem length_dwarr2barrL (d : List Limb) : (dwarr2barrL d).length = 4 * d.length :=
  length_flatMap_block (m := 4) (fun _ => rfl) d
@[simp] theorem length_dwarr2barrB (d : List Limb) : (dwarr2barrB d).length = 4 * d.length :=
  length_flatMap_block (m := 4) (fun _ => rfl) d

@[simp] theorem length_barr2warrL (b : List Byte) : (barr2warrL b).length = b.length / 2 := by
  induction b using barr2warrL.induct with
  | case1 b0 b1 rest ih => simp [barr2warrL, ih]; omega
  | case2 => simp [barr2warrL]
  | case3 => simp [barr2warrL]
@[simp] theorem length_barr2warrB (b : List Byte) : (barr2warrB b).length = b.length / 2 := by
  induction b using barr2warrB.induct with
  | case1 b0 b1 rest ih => simp [barr2warrB, ih]; omega
  | case2 => simp [barr2warrB]
  | case3 => simp [barr2warrB]
@[simp] theorem length_barr2dwarrL (b : List Byte) : (barr2dwarrL b).length = b.length / 4 := by
  induction b using barr2dwarrL.induct with
  | case1 b0 b1 b2 b3 rest ih => simp [barr2dwarrL, ih]; omega
  | _ => simp [barr2dwarrL]
@[simp] theorem length_barr2dwarrB (b : List Byte) : (barr2dwarrB b).length = b.length / 4 := by
  induction b using barr2dwarrB.induct with
  | case1 b0 b1 b2 b3 rest ih => simp [barr2dwarrB, ih]; omega
  | _ => simp [barr2dwarrB]

/-! ### Elements -/

theorem getElem?_barr2warrL {b : List Byte} {i : Nat} {b0 b1 : Byte} (h0 : b[2 * i]? = some b0)
    (h1 : b[2 * i + 1]? = some b1) : (barr2warrL b)[i]? = some (wordOfBytes b1 b0) := by
  induction b using barr2warrL.induct generalizing i with
  | case1 x y rest ih =>
    cases i with
    | zero => simp_all [barr2warrL]
    | succ i => simpa [barr2warrL] using ih (by simpa [Nat.mul_succ] using h0) (by simpa [Nat.mul_succ] using h1)
  | case2 x => cases i <;> simp_all
  | case3 => simp at h0

theorem getElem?_barr2warrB {b : List Byte} {i : Nat} {b0 b1 : Byte} (h0 : b[2 * i]? = some b0)
    (h1 : b[2 * i + 1]? = some b1) : (barr2warrB b)[i]? = some (wordOfBytes b0 b1) := by
  induction b using barr2warrB.induct generalizing i with
  | case1 x y rest ih =>
    cases i with
    | zero => simp_all [barr2warrB]
    | succ i => simpa [barr2warrB] using ih (by simpa [Nat.mul_succ] using h0) (by simpa [Nat.mul_succ] using h1)
  | case2 x => cases i <;> simp_all
  | case3 => simp at h0

theorem getElem?_barr2dwarrL {b : List Byte} {i : Nat} {b0 b1 b2 b3 : Byte} (h0 : b[4 * i]? = some b0)
    (h1 : b[4 * i + 1]? = some b1) (h2 : b[4 * i + 2]? = some b2) (h3 : b[4 * i + 3]? = some b3) :
    (barr2dwarrL b)[i]? = some (limbOfBytes b3 b2 b1 b0) := by
  induction b using barr2dwarrL.induct generalizing i with
  | case1 w x y z rest ih =>
    cases i with
    | zero => simp_all [barr2dwarrL]
    | succ i =>
      simpa [barr2dwarrL] using ih (by simpa [Nat.mul_succ] using h0) (by simpa [Nat.mul_succ] using h1)
        (by simpa [Nat.mul_succ] using h2) (by simpa [Nat.mul_succ] using h3)
  | _ => cases i <;> simp_all [Nat.mul_succ]

theorem getElem?_barr2dwarrB {b : List Byte} {i : Nat} {b0 b1 b2 b3 : Byte} (h0 : b[4 * i]? = some b0)
    (h1 : b[4 * i + 1]? = some b1) (h2 : b[4 * i + 2]? = some b2) (h3 : b[4 * i + 3]? = some b3) :
    (barr2dwarrB b)[i]? = some (limbOfBytes b0 b1 b2 b3) := by
  induction b using barr2dwarrB.induct generalizing i with
  | case1 w x y z rest ih =>
    cases i with
    | zero => simp_all [barr2dwarrB]
    | succ i =>
      simpa [barr2dwarrB] using ih (by simpa [Nat.mul_succ] using h0) (by simpa [Nat.mul_succ] using h1)
        (by simpa [Nat.mul_succ] using h2) (by simpa [Nat.mul_succ] using h3)
  | _ => cases i <;> simp_all [Nat.mul_succ]

theorem getElem?_warr2barrL {w : List Word} {i : Nat} {x : Word} (h : w[i]? = some x) :
    (warr2barrL w)[2 * i]? = some (wordByte x 0) ∧ (warr2barrL w)[2 * i + 1]? = some (wordByte x 1) :=
  ⟨by simpa [h, warr2barrL] using getElem?_flatMap_block (f := fun x => [wordByte x 0, wordByte x 1]) (fun _ => rfl) w i 0 (by omega),
   by simpa [h, warr2barrL] using getElem?_flatMap_block (f := fun x => [wordByte x 0, wordByte x 1]) (fun _ => rfl) w i 1 (by omega)⟩

theorem getElem?_warr2barrB {w : List Word} {i : Nat} {x : Word} (h : w[i]? = some x) :
    (warr2barrB w)[2 * i]? = some (wordByte x 1) ∧ (warr2barrB w)[2 * i + 1]? = some (wordByte x 0) :=
  ⟨by simpa [h, warr2barrB] using getElem?_flatMap_block (f := fun x => [wordByte x 1, wordByte x 0]) (fun _ => rfl) w i 0 (by omega),
   by simpa [h, warr2barrB] using getElem?_flatMap_block (f := fun x => [wordByte x 1, wordByte x 0]) (fun _ => rfl) w i 1 (by omega)⟩

theorem getElem?_dwarr2barrL {d : List Limb} {i j : Nat} {x : Limb} (h : d[i]? = some x) (hj : j < 4) :
    (dwarr2barrL d)[4 * i + j]? = some (limbByte x j) := by
  have := getElem?_flatMap_block (f := fun x => [limbByte x 0, limbByte x 1, limbByte x 2, limbByte x 3])
    (fun _ => rfl) d i j hj
  have c : j = 0 ∨ j = 1 ∨ j = 2 ∨ j = 3 := by omega
  rcases c with rfl | rfl | rfl | rfl <;> simpa [h, dwarr2barrL] using this

theorem getElem?_dwarr2barrB {d : List Limb} {i j : Nat} {x : Limb} (h : d[i]? = some x) (hj : j < 4) :
    (dwarr2barrB d)[4 * i + j]? = some (limbByte x (3 - j)) := by
  have := getElem?_flatMap_block (f := fun x => [limbByte x 3, limbByte x 2, limbByte x 1, limbByte x 0])
    (fun _ => rfl) d i j hj
  have c : j = 0 ∨ j = 1 ∨ j = 2 ∨ j = 3 := by omega
  rcases c with rfl | rfl | rfl | rfl <;> simpa [h, dwarr2barrB] using this

/-! ### Round trips -/

theorem warr2barrL_barr2warrL {b : List Byte} (h : b.length % 2 = 0) : warr2barrL (barr2warrL b) = b := by
  induction b using barr2warrL.induct with
  | case1 x y rest ih => simpa [warr2barrL, barr2warrL] using ih (by simp at h; omega)
  | case2 x => simp at h
  | case3 => rfl

theorem warr2barrB_barr2warrB {b : List Byte} (h : b.length % 2 = 0) : warr2barrB (barr2warrB b) = b := by
  induction b using barr2warrB.induct with
  | case1 x y rest ih => simpa [warr2barrB, barr2warrB] using ih (by simp at h; omega)
  | case2 x => simp at h
  | case3 => rfl

theorem barr2warrL_warr2barrL (w : List Word) : barr2warrL (warr2barrL w) = w := by
  induction w with
  | nil => rfl
  | cons x rest ih => simpa [warr2barrL, barr2warrL] using ih

theorem barr2warrB_warr2barrB (w : List Word) : barr2warrB (warr2barrB w) = w := by
  induction w with
  | nil => rfl
  | cons x rest ih => simpa [warr2barrB, barr2warrB] using ih

theorem dwarr2barrL_barr2dwarrL {b : List Byte} (h : b.length % 4 = 0) : dwarr2barrL (barr2dwarrL b) = b := by
  induction b using barr2dwarrL.induct with
  | case1 w x y z rest ih =>
    simpa [dwarr2barrL, barr2dwarrL] using ih (by simp at h; omega)
  | case5 => rfl
  | _ => simp at h

theorem dwarr2barrB_barr2dwarrB {b : List Byte} (h : b.length % 4 = 0) : dwarr2barrB (barr2dwarrB b) = b := by
  induction b using barr2dwarrB.induct with
  | case1 w x y z rest ih =>
    simpa [dwarr2barrB, barr2dwarrB] using ih (by simp at h; omega)
  | case5 => rfl
  | _ => simp at h

theorem barr2dwarrL_dwarr2barrL (d : List Limb) : barr2dwarrL (dwarr2barrL d) = d := by
  induction d with
  | nil => rfl
  | cons x rest ih => simpa [dwarr2barrL, barr2dwarrL] using ih

theorem barr2dwarrB_dwarr2barrB (d : List Limb) : barr2dwarrB (dwarr2barrB d) = d := by
  induction d with
  | nil => rfl
  | cons x rest ih => simpa [dwarr2barrB, barr2dwarrB] using ih

end F

end Sys2Proof.Machine
end

