-- ==== Sys2Proof/Laws/Cb.lean ====
section
/-! SUPPORT. The Composite Builder's pure functions (42_composite_builder.md): chunks, the round trips of
R102, the builder's consistency (R103) and the integer a chunk becomes (R91). -/

namespace Sys2Proof.Machine

namespace F

@[simp] theorem length_chunks (S : Nat) (b : List Byte) : (chunks S b).length = b.length / S := by simp [chunks]

theorem getElem?_chunks {S k : Nat} {b : List Byte} (h : k < b.length / S) :
    (chunks S b)[k]? = some ((b.drop (k * S)).take S) := by
  simp [chunks, h]

theorem length_of_mem_chunks {S : Nat} {b k : List Byte} (h : k ∈ chunks S b) : k.length = S := by
  simp only [chunks, List.mem_map, List.mem_range] at h
  obtain ⟨i, hi, rfl⟩ := h
  have h1 : (i + 1) * S ≤ b.length :=
    le_trans (Nat.mul_le_mul_right S hi) (Nat.div_mul_le_self b.length S)
  have : (i + 1) * S = i * S + S := Nat.succ_mul i S
  simp only [List.length_take, List.length_drop]
  omega

/-- The first chunk, and the chunks of what is left. -/
theorem chunks_eq_cons {S : Nat} {b : List Byte} (h0 : 0 < S) (h : S ≤ b.length) :
    chunks S b = b.take S :: chunks S (b.drop S) := by
  unfold chunks
  have e : b.length / S = (b.drop S).length / S + 1 := by
    rw [List.length_drop, Nat.div_eq_sub_div h0 h]
  rw [e, List.range_succ_eq_map, List.map_cons, List.map_map]
  simp only [Nat.zero_mul, List.drop_zero]
  congr 1
  apply List.map_congr_left
  intro i _
  have : (i + 1) * S = S + i * S := by rw [Nat.succ_mul, Nat.add_comm]
  simp [Function.comp, List.drop_drop, this]

theorem chunks_nil (S : Nat) : chunks S [] = [] := by simp [chunks]

/-- Chunks of a concatenation of blocks of one size are the blocks. -/
theorem chunks_flatMap {α : Type} {S : Nat} (h0 : 0 < S) {f : α → List Byte} (c : List α)
    (hf : ∀ x ∈ c, (f x).length = S) : chunks S (c.flatMap f) = c.map f := by
  induction c with
  | nil => exact chunks_nil S
  | cons x rest ih =>
    have hx : (f x).length = S := hf x (by simp)
    have hl : S ≤ ((x :: rest).flatMap f).length := by simp [hx]
    rw [chunks_eq_cons h0 hl]
    have ht : ((x :: rest).flatMap f).take S = f x := by
      rw [List.flatMap_cons, ← hx, List.take_left]
    have hd : ((x :: rest).flatMap f).drop S = rest.flatMap f := by
      rw [List.flatMap_cons, ← hx, List.drop_left]
    rw [ht, hd, ih fun y hy => hf y (by simp [hy])]
    rfl

/-- A byte array whose length is a multiple of `S` is the concatenation of its chunks. -/
theorem flatten_chunks {S : Nat} (h0 : 0 < S) {b : List Byte} (h : b.length % S = 0) : (chunks S b).flatten = b := by
  induction n : b.length / S generalizing b with
  | zero =>
    have : b.length = 0 := by
      have := Nat.div_add_mod b.length S
      rw [n, h] at this
      simpa using this.symm
    rw [List.length_eq_zero_iff.mp this, chunks_nil]
    rfl
  | succ m ih =>
    have hl : S ≤ b.length := by
      by_contra hlt
      rw [Nat.div_eq_of_lt (by omega)] at n
      omega
    have e := Nat.div_eq_sub_div h0 hl
    rw [chunks_eq_cons h0 hl, List.flatten_cons, ih, List.take_append_drop]
    · rw [List.length_drop]
      rw [← Nat.mod_eq_sub_mod hl]; exact h
    · rw [List.length_drop]; omega

/-! ### Round trips (R102) -/

theorem carr2barrB_barr2carrB {S : Nat} {b : List Byte} (h0 : 0 < S) (h4 : S % 4 = 0) (h : b.length % S = 0) :
    carr2barrB (barr2carrB S b) = b := by
  unfold carr2barrB barr2carrB
  rw [List.flatMap_map]
  conv => rhs; rw [← flatten_chunks h0 h, ← List.flatMap_id']
  apply List.flatMap_congr
  intro k hk
  exact dwarr2barrB_barr2dwarrB (by rw [length_of_mem_chunks hk, h4])

theorem carr2barrL_barr2carrL {S : Nat} {b : List Byte} (h0 : 0 < S) (h4 : S % 4 = 0) (h : b.length % S = 0) :
    carr2barrL (barr2carrL S b) = b := by
  unfold carr2barrL barr2carrL
  rw [List.flatMap_map]
  conv => rhs; rw [← flatten_chunks h0 h, ← List.flatMap_id']
  apply List.flatMap_congr
  intro k hk
  rw [dwarr2barrB_barr2dwarrB (by rw [List.length_reverse, length_of_mem_chunks hk, h4]), List.reverse_reverse]

theorem barr2carrB_carr2barrB {m : Nat} {c : Composite} (h0 : 0 < m) (h : ∀ s ∈ c, s.length = m) :
    barr2carrB (4 * m) (carr2barrB c) = c := by
  unfold carr2barrB barr2carrB
  rw [chunks_flatMap (by omega) c fun s hs => by rw [length_dwarr2barrB, h s hs], List.map_map]
  conv => rhs; rw [← List.map_id c]
  apply List.map_congr_left
  intro s _
  exact barr2dwarrB_dwarr2barrB s

theorem barr2carrL_carr2barrL {m : Nat} {c : Composite} (h0 : 0 < m) (h : ∀ s ∈ c, s.length = m) :
    barr2carrL (4 * m) (carr2barrL c) = c := by
  unfold carr2barrL barr2carrL
  rw [chunks_flatMap (by omega) c fun s hs => by rw [List.length_reverse, length_dwarr2barrB, h s hs], List.map_map]
  conv => rhs; rw [← List.map_id c]
  apply List.map_congr_left
  intro s _
  simp only [Function.comp, List.reverse_reverse]
  exact barr2dwarrB_dwarr2barrB s

/-! ### Shape of the results -/

@[simp] theorem length_barr2carrB (S : Nat) (b : List Byte) : (barr2carrB S b).length = b.length / S := by
  simp [barr2carrB]
@[simp] theorem length_barr2carrL (S : Nat) (b : List Byte) : (barr2carrL S b).length = b.length / S := by
  simp [barr2carrL]

theorem length_of_mem_barr2carrB {S : Nat} {b : List Byte} {s : Superword} (h : s ∈ barr2carrB S b) :
    s.length = S / 4 := by
  simp only [barr2carrB, List.mem_map] at h
  obtain ⟨k, hk, rfl⟩ := h
  rw [length_barr2dwarrB, length_of_mem_chunks hk]

theorem length_of_mem_barr2carrL {S : Nat} {b : List Byte} {s : Superword} (h : s ∈ barr2carrL S b) :
    s.length = S / 4 := by
  simp only [barr2carrL, List.mem_map] at h
  obtain ⟨k, hk, rfl⟩ := h
  rw [length_barr2dwarrB, List.length_reverse, length_of_mem_chunks hk]

/-- Superword `k` of a `B` composite is its chunk, decoded. -/
theorem getElem?_barr2carrB {S k : Nat} {b : List Byte} (h : k < b.length / S) :
    (barr2carrB S b)[k]? = some (barr2dwarrB ((b.drop (k * S)).take S)) := by
  simp [barr2carrB, getElem?_chunks h]

/-- Superword `k` of an `L` composite is its chunk, reversed and decoded. -/
theorem getElem?_barr2carrL {S k : Nat} {b : List Byte} (h : k < b.length / S) :
    (barr2carrL S b)[k]? = some (barr2dwarrB ((b.drop (k * S)).take S).reverse) := by
  simp [barr2carrL, getElem?_chunks h]

theorem isConsistentCarr_iff (c : Composite) :
    isConsistentCarr c = true ↔ ∀ x ∈ c, ∀ y ∈ c, x.length = y.length := by
  simp [isConsistentCarr]

theorem isConsistentCarr_of_length {m : Nat} {c : Composite} (h : ∀ s ∈ c, s.length = m) :
    isConsistentCarr c = true := by
  rw [isConsistentCarr_iff]
  intro x hx y hy
  rw [h x hx, h y hy]

/-- The bytes of a composite: `size(CA c)` of them. -/
theorem length_carr2barrB (c : Composite) : (carr2barrB c).length = (Value.ca c).size := by
  simp only [carr2barrB, Value.size, List.length_flatMap, length_dwarr2barrB]
theorem length_carr2barrL (c : Composite) : (carr2barrL c).length = (Value.ca c).size := by
  simp only [carr2barrL, Value.size, List.length_flatMap, List.length_reverse, length_dwarr2barrB]

/-- A byte of a concatenation of blocks of any lengths. -/
theorem getElem?_flatMap_at {α : Type} (f : α → List Byte) {l : List α} {k p : Nat} {x : α} (h : l[k]? = some x)
    (hp : p < (f x).length) :
    (l.flatMap f)[((l.take k).map fun x => (f x).length).sum + p]? = (f x)[p]? := by
  induction l generalizing k with
  | nil => simp at h
  | cons y l ih =>
    cases k with
    | zero => simp at h; subst h; simp [List.getElem?_append_left hp]
    | succ k =>
      have := ih (k := k) (by simpa using h)
      simp only [List.take_succ_cons, List.map_cons, List.sum_cons, List.flatMap_cons]
      rw [List.getElem?_append_right (by omega), ← this]
      congr 1; omega

end F

/-! ### The integer a chunk becomes (R91) -/

theorem foldl_bigEndian (b : List Byte) (a : Nat) :
    b.foldl (fun v x => v * 256 + x.toNat) a = a * 256 ^ b.length + bigEndian b := by
  induction b generalizing a with
  | nil => simp [bigEndian]
  | cons x rest ih =>
    have e : bigEndian (x :: rest) = rest.foldl (fun v x => v * 256 + x.toNat) (0 * 256 + x.toNat) := rfl
    rw [e, List.foldl_cons, ih, ih, List.length_cons, Nat.pow_succ]
    ring

theorem bigEndian_cons (x : Byte) (b : List Byte) : bigEndian (x :: b) = x.toNat * 256 ^ b.length + bigEndian b := by
  have := foldl_bigEndian b (0 * 256 + x.toNat)
  simpa [bigEndian] using this

theorem bigEndian_reverse (b : List Byte) : bigEndian b.reverse = littleEndian b := by
  induction b with
  | nil => rfl
  | cons x rest ih =>
    have : bigEndian (rest.reverse ++ [x]) = bigEndian rest.reverse * 256 + x.toNat := by
      simp [bigEndian]
    rw [List.reverse_cons, this, ih]
    simp [littleEndian]
    ring

theorem toNat_limbOfBytes (b3 b2 b1 b0 : Byte) :
    (limbOfBytes b3 b2 b1 b0).toNat =
      b3.toNat * 256 ^ 3 + b2.toNat * 256 ^ 2 + b1.toNat * 256 + b0.toNat := by
  have h0 := b0.isLt
  have h1 := b1.isLt
  have h2 := b2.isLt
  have e1 : (b3 ++ b2).toNat = b3.toNat * 256 + b2.toNat := by
    rw [BitVec.toNat_append, ← Nat.shiftLeft_add_eq_or_of_lt h2, Nat.shiftLeft_eq]
  have e2 : (b3 ++ b2 ++ b1).toNat = (b3.toNat * 256 + b2.toNat) * 256 + b1.toNat := by
    rw [BitVec.toNat_append, ← Nat.shiftLeft_add_eq_or_of_lt h1, Nat.shiftLeft_eq, e1]
  have e3 : (limbOfBytes b3 b2 b1 b0).toNat = (b3 ++ b2 ++ b1).toNat * 256 + b0.toNat := by
    refine (BitVec.toNat_append (b3 ++ b2 ++ b1) b0).trans ?_
    rw [← Nat.shiftLeft_add_eq_or_of_lt h0, Nat.shiftLeft_eq]
  rw [e3, e2]
  ring

/-- A chunk decoded by the big-endian limb decoder is the integer it is the big-endian form of. -/
theorem val_barr2dwarrB {b : List Byte} (h : b.length % 4 = 0) : val (F.barr2dwarrB b) = bigEndian b := by
  induction b using F.barr2dwarrB.induct with
  | case1 w x y z rest ih =>
    have hr : rest.length % 4 = 0 := by simp at h; omega
    have hw : width (F.barr2dwarrB rest) = 8 * rest.length := by
      simp [width]; omega
    have hp : 2 ^ (8 * rest.length) = 256 ^ rest.length := by rw [Nat.pow_mul]
    rw [F.barr2dwarrB, val_cons, ih hr, hw, hp, toNat_limbOfBytes, bigEndian_cons, bigEndian_cons, bigEndian_cons,
      bigEndian_cons]
    simp only [List.length_cons, Nat.pow_succ]
    ring
  | case5 => rfl
  | _ => simp at h

end Sys2Proof.Machine
end

