-- ==== Sys2Proof/Laws/Decode.lean ====
section
/-! SUPPORT. The fields of a command word (30_encoding.md R50): a word built from fields has those fields, a
word is built from its fields when bits 11:0 are 0, and the word of a form meets its form's mask (R51). -/

namespace Sys2Proof

namespace Field

section OfFields

variable (im : BitVec 32) (op : BitVec 8) (d a b : SlotIx) (i : Nat)

/-- Bit `i` of a word built from its fields. -/
theorem getLsbD_ofFields : (ofFields im op d a b).getLsbD i =
    if i < 12 then false
    else if i < 16 then (BitVec.ofFin (w := 4) b).getLsbD (i - 12)
    else if i < 20 then (BitVec.ofFin (w := 4) a).getLsbD (i - 16)
    else if i < 24 then (BitVec.ofFin (w := 4) d).getLsbD (i - 20)
    else if i < 32 then op.getLsbD (i - 24)
    else im.getLsbD (i - 32) := by
  refine (BitVec.getLsbD_append (x := im ++ op ++ BitVec.ofFin (w := 4) d ++ BitVec.ofFin (w := 4) a ++
    BitVec.ofFin (w := 4) b) (y := 0#12) (i := i)).trans ?_
  rw [BitVec.getLsbD_append (x := im ++ op ++ BitVec.ofFin (w := 4) d ++ BitVec.ofFin (w := 4) a),
    BitVec.getLsbD_append (x := im ++ op ++ BitVec.ofFin (w := 4) d), BitVec.getLsbD_append (x := im ++ op),
    BitVec.getLsbD_append (x := im)]
  have e1 : i - 12 - 4 = i - 16 := by omega
  have e2 : i - 16 - 4 = i - 20 := by omega
  have e3 : i - 20 - 4 = i - 24 := by omega
  have e4 : i - 24 - 8 = i - 32 := by omega
  rw [e1, e2, e3, e4]
  by_cases h12 : i < 12
  · simp [h12]
  have c1 : (i - 12 < 4) = (i < 16) := by apply propext; omega
  have c2 : i < 16 ∨ (i - 16 < 4) = (i < 20) := by
    by_cases h : i < 16
    · exact .inl h
    · right; apply propext; omega
  have c3 : i < 20 ∨ (i - 20 < 4) = (i < 24) := by
    by_cases h : i < 20
    · exact .inl h
    · right; apply propext; omega
  have c4 : i < 24 ∨ (i - 24 < 8) = (i < 32) := by
    by_cases h : i < 24
    · exact .inl h
    · right; apply propext; omega
  simp only [h12, c1, if_false]
  by_cases h16 : i < 16
  · simp [h16]
  simp only [c2.resolve_left h16]
  by_cases h20 : i < 20
  · simp [h16, h20]
  simp only [c3.resolve_left h20]
  by_cases h24 : i < 24
  · simp [h16, h20, h24]
  simp only [c4.resolve_left h24]

@[simp] theorem imm_ofFields : imm (ofFields im op d a b) = im := by
  apply BitVec.eq_of_getLsbD_eq
  intro i hi
  unfold imm
  rw [BitVec.getLsbD_extractLsb', getLsbD_ofFields]
  have h1 : ¬ 32 + i < 12 := by omega
  have h2 : ¬ 32 + i < 16 := by omega
  have h3 : ¬ 32 + i < 20 := by omega
  have h4 : ¬ 32 + i < 24 := by omega
  simp [h1, h2, h3, h4, hi]

@[simp] theorem opcode_ofFields : opcode (ofFields im op d a b) = op := by
  apply BitVec.eq_of_getLsbD_eq
  intro i hi
  unfold opcode
  rw [BitVec.getLsbD_extractLsb', getLsbD_ofFields]
  have h1 : ¬ 24 + i < 12 := by omega
  have h2 : ¬ 24 + i < 16 := by omega
  have h3 : ¬ 24 + i < 20 := by omega
  have h5 : 24 + i < 32 := by omega
  simp [h1, h2, h3, h5, hi]

theorem extract_rd_ofFields : (ofFields im op d a b).extractLsb' 20 4 = BitVec.ofFin (w := 4) d := by
  apply BitVec.eq_of_getLsbD_eq
  intro i hi
  rw [BitVec.getLsbD_extractLsb', getLsbD_ofFields]
  have h1 : ¬ 20 + i < 12 := by omega
  have h2 : ¬ 20 + i < 16 := by omega
  have h4 : 20 + i < 24 := by omega
  simp [h1, h2, h4, hi]

theorem extract_ra_ofFields : (ofFields im op d a b).extractLsb' 16 4 = BitVec.ofFin (w := 4) a := by
  apply BitVec.eq_of_getLsbD_eq
  intro i hi
  rw [BitVec.getLsbD_extractLsb', getLsbD_ofFields]
  have h1 : ¬ 16 + i < 12 := by omega
  have h3 : 16 + i < 20 := by omega
  simp [h1, h3, hi]

theorem extract_rb_ofFields : (ofFields im op d a b).extractLsb' 12 4 = BitVec.ofFin (w := 4) b := by
  apply BitVec.eq_of_getLsbD_eq
  intro i hi
  rw [BitVec.getLsbD_extractLsb', getLsbD_ofFields]
  have h2 : 12 + i < 16 := by omega
  simp [h2, hi]

@[simp] theorem rd_ofFields : rd (ofFields im op d a b) = d := by
  unfold rd; rw [extract_rd_ofFields]
@[simp] theorem ra_ofFields : ra (ofFields im op d a b) = a := by
  unfold ra; rw [extract_ra_ofFields]
@[simp] theorem rb_ofFields : rb (ofFields im op d a b) = b := by
  unfold rb; rw [extract_rb_ofFields]
@[simp] theorem simm_ofFields : simm (ofFields im op d a b) = im.toInt := by
  unfold simm; rw [imm_ofFields]

end OfFields

/-- A word whose bits 11:0 are 0 is built from its fields. -/
theorem ofFields_fields {c : BitVec 64} (h : ∀ i, i < 12 → c.getLsbD i = false) :
    ofFields (imm c) (opcode c) (rd c) (ra c) (rb c) = c := by
  apply BitVec.eq_of_getLsbD_eq
  intro i hi
  have hd : BitVec.ofFin (w := 4) (rd c) = c.extractLsb' 20 4 := rfl
  have ha : BitVec.ofFin (w := 4) (ra c) = c.extractLsb' 16 4 := rfl
  have hb : BitVec.ofFin (w := 4) (rb c) = c.extractLsb' 12 4 := rfl
  rw [getLsbD_ofFields, hd, ha, hb]
  unfold imm opcode
  simp only [BitVec.getLsbD_extractLsb']
  by_cases h12 : i < 12
  · simp [h12, h i h12]
  by_cases h16 : i < 16
  · have e : 12 + (i - 12) = i := by omega
    have l : i - 12 < 4 := by omega
    simp [h12, h16, e, l]
  by_cases h20 : i < 20
  · have e : 16 + (i - 16) = i := by omega
    have l : i - 16 < 4 := by omega
    simp [h12, h16, h20, e, l]
  by_cases h24 : i < 24
  · have e : 20 + (i - 20) = i := by omega
    have l : i - 20 < 4 := by omega
    simp [h12, h16, h20, h24, e, l]
  by_cases h32 : i < 32
  · have e : 24 + (i - 24) = i := by omega
    have l : i - 24 < 8 := by omega
    simp [h12, h16, h20, h24, h32, e, l]
  · have e : 32 + (i - 32) = i := by omega
    have l : i - 32 < 32 := by omega
    simp [h12, h16, h20, h24, h32, e, l]

end Field

/-! ### Masks (R51) -/

/-- Which bits a form fixes: the opcode, bits 11:0, and the fields the form does not use. -/
def Form.fixes (f : Form) (i : Nat) : Bool :=
  i < 12 || (24 ≤ i && i < 32) ||
    match f with
    | .U => (12 ≤ i && i < 16) || (32 ≤ i && i < 64)
    | .S => (12 ≤ i && i < 16) || (20 ≤ i && i < 24) || (32 ≤ i && i < 64)
    | .B => 32 ≤ i && i < 64
    | .I => 12 ≤ i && i < 16

theorem Form.getLsbD_mask (f : Form) {i : Nat} (h : i < 64) : f.mask.getLsbD i = f.fixes i := by
  have : ∀ f : Form, ∀ i : Fin 64, f.mask.getLsbD i = f.fixes i := by
    intro f; cases f <;> decide
  exact this f ⟨i, h⟩

theorem OpRow.getLsbD_matchWord (r : OpRow) {i : Nat} (h : i < 64) :
    r.matchWord.getLsbD i = (decide (24 ≤ i ∧ i < 32) && r.opcode.getLsbD (i - 24)) := by
  unfold OpRow.matchWord
  rw [BitVec.getLsbD_shiftLeft, BitVec.getLsbD_setWidth]
  by_cases h1 : i < 24
  · have : ¬ 24 ≤ i := by omega
    simp [h1, this]
  · by_cases h2 : i < 32
    · have a : 24 ≤ i := by omega
      have b : i - 24 < 64 := by omega
      simp [h1, h2, h, a, b]
    · have z : r.opcode.getLsbD (i - 24) = false := BitVec.getLsbD_of_ge _ _ (by omega)
      simp [h2, z]

/-- A word meets a row's mask and match iff every bit the row's form fixes is that of the opcode, or 0. -/
theorem OpRow.matches_iff (r : OpRow) (c : BitVec 64) :
    c &&& r.form.mask = r.matchWord ↔
      ∀ i, i < 64 → r.form.fixes i = true →
        c.getLsbD i = (decide (24 ≤ i ∧ i < 32) && r.opcode.getLsbD (i - 24)) := by
  constructor
  · intro h i hi hf
    have := congrArg (fun w => BitVec.getLsbD w i) h
    simp only [BitVec.getLsbD_and] at this
    rw [r.form.getLsbD_mask hi, hf, r.getLsbD_matchWord hi] at this
    simpa using this
  · intro h
    apply BitVec.eq_of_getLsbD_eq
    intro i hi
    rw [BitVec.getLsbD_and, r.form.getLsbD_mask hi, r.getLsbD_matchWord hi]
    cases hf : r.form.fixes i with
    | true => rw [h i hi hf]; simp
    | false =>
      have : ¬ (24 ≤ i ∧ i < 32) := by
        intro hh
        have : r.form.fixes i = true := by simp [Form.fixes, hh.1, hh.2]
        rw [hf] at this; exact absurd this (by decide)
      simp [this]

/-- The fields a form does not use are 0. -/
def Form.fieldsZero (f : Form) (im : BitVec 32) (d b : SlotIx) : Prop :=
  match f with
  | .U => im = 0 ∧ b = 0
  | .S => im = 0 ∧ d = 0 ∧ b = 0
  | .B => im = 0
  | .I => b = 0

/-- A word built from fields meets a row's mask and match if the opcode is the row's and the fields its form
does not use are 0. -/
theorem ofFields_matches (r : OpRow) {im : BitVec 32} {d a b : SlotIx} (h : r.form.fieldsZero im d b) :
    Field.ofFields im r.opcode d a b &&& r.form.mask = r.matchWord := by
  rw [r.matches_iff]
  intro i hi hf
  rw [Field.getLsbD_ofFields]
  by_cases h12 : i < 12
  · have : ¬ 24 ≤ i := by omega
    simp [h12, this]
  by_cases hop : 24 ≤ i ∧ i < 32
  · have h1 : ¬ i < 16 := by omega
    have h2 : ¬ i < 20 := by omega
    have h3 : ¬ i < 24 := by omega
    simp [h12, h1, h2, h3, hop]
  have hz : (0 : Fin 16) = (0#4).toFin := rfl
  have hop' : decide (24 ≤ i ∧ i < 32) = false := decide_eq_false hop
  rw [hop', Bool.false_and]
  by_cases h16 : i < 16
  · simp only [h12, h16, if_false, if_true]
    have h1 : ¬ 24 ≤ i := by omega
    have h2 : ¬ 32 ≤ i := by omega
    have h3 : ¬ 20 ≤ i := by omega
    rcases r with ⟨o, f, mk⟩
    cases f <;> simp_all [Form.fieldsZero, Form.fixes]
    exfalso; omega
  by_cases h20 : i < 20
  · exfalso
    have h1 : ¬ 24 ≤ i := by omega
    have h2 : ¬ 32 ≤ i := by omega
    have h3 : ¬ 20 ≤ i := by omega
    rcases r with ⟨o, f, mk⟩
    cases f <;> simp_all [Form.fixes] <;> omega
  by_cases h24 : i < 24
  · simp only [h12, h16, h20, h24, if_false, if_true]
    have h1 : ¬ 24 ≤ i := by omega
    have h2 : ¬ 32 ≤ i := by omega
    rcases r with ⟨o, f, mk⟩
    cases f <;> simp_all [Form.fieldsZero, Form.fixes] <;> (exfalso; omega)
  · have h32 : ¬ i < 32 := by omega
    simp only [h12, h16, h20, h24, h32, if_false]
    have h2 : 32 ≤ i := by omega
    rcases r with ⟨o, f, mk⟩
    cases f <;> simp_all [Form.fieldsZero, Form.fixes]
    exfalso; omega

/-! ### The table (R53) -/

/-- No two rows have the same opcode, so at most one row matches a word (R54). -/
theorem opRows_opcodes_distinct : (opRows.map OpRow.opcode).Nodup := by decide

/-- What the decoder gives for a word with the opcode of a row. -/
theorem decode_of_row {c : BitVec 64} {r : OpRow}
    (hfind : opRows.find? (fun q => q.opcode == Field.opcode c) = some r)
    (hm : c &&& r.form.mask = r.matchWord) :
    decode c = .ok (r.make (Field.rd c) (Field.ra c) (Field.rb c) (Field.simm c)) := by
  unfold decode; rw [hfind]; simp only [hm, if_true]

/-- Every command the decoder accepts comes from a row whose opcode, mask and match the word meets. -/
theorem row_of_decode {c : BitVec 64} {i : Instr} (h : decode c = .ok i) :
    ∃ r ∈ opRows, r.opcode = Field.opcode c ∧ c &&& r.form.mask = r.matchWord ∧
      i = r.make (Field.rd c) (Field.ra c) (Field.rb c) (Field.simm c) := by
  unfold decode at h
  split at h
  · cases h
  · rename_i r hr
    have hop : r.opcode = Field.opcode c := by simpa using List.find?_some hr
    split at h
    · rename_i hm
      cases h
      exact ⟨r, List.mem_of_find?_eq_some hr, hop, hm, rfl⟩
    · cases h

/-- Decoding a word built from fields, the opcode being a row's and the fields its form does not use 0. -/
theorem decode_ofFields {r : OpRow} (hr : opRows.find? (fun q => q.opcode == r.opcode) = some r)
    {im : BitVec 32} {d a b : SlotIx} (hz : r.form.fieldsZero im d b) :
    decode (Field.ofFields im r.opcode d a b) = .ok (r.make d a b im.toInt) := by
  rw [decode_of_row (r := r) (by rw [Field.opcode_ofFields]; exact hr) (ofFields_matches r hz)]
  simp

/-- Decoding a word that meets a row's mask and match. -/
theorem decode_of_matches {c : BitVec 64} {r : OpRow}
    (hr : opRows.find? (fun q => q.opcode == r.opcode) = some r) (hm : c &&& r.form.mask = r.matchWord) :
    decode c = .ok (r.make (Field.rd c) (Field.ra c) (Field.rb c) (Field.simm c)) := by
  have hop : Field.opcode c = r.opcode := by
    rw [r.matches_iff] at hm
    apply BitVec.eq_of_getLsbD_eq
    intro i hi
    have h32 : 24 + i < 32 := by omega
    have := hm (24 + i) (by omega) (by simp [Form.fixes, h32])
    simp only [Field.opcode, BitVec.getLsbD_extractLsb', hi, this]
    simp [h32]
  exact decode_of_row (by rw [hop]; exact hr) hm

/-- An immediate in range survives its 32-bit two's complement (R52). -/
theorem toInt_ofInt_of_simmInRange {n : Int} (h : simmInRange n = true) : (BitVec.ofInt 32 n).toInt = n := by
  simp only [simmInRange, decide_eq_true_eq, Bool.and_eq_true] at h
  rw [BitVec.toInt_ofInt]
  simp [Int.bmod]; omega

/-- Every immediate field reads as a number in range (R52). -/
theorem simmInRange_toInt (x : BitVec 32) : simmInRange x.toInt = true := by
  have h1 := BitVec.le_toInt x
  have h2 := BitVec.toInt_lt (x := x)
  simp only [simmInRange, decide_eq_true_eq, Bool.and_eq_true]
  omega

/-! ### What a word that meets a row's mask and match holds -/

section
variable {c : BitVec 64} {r : OpRow}

/-- Bits 11:0 are 0 (R50). -/
theorem low_of_matches (hm : c &&& r.form.mask = r.matchWord) (i : Nat) (h : i < 12) : c.getLsbD i = false := by
  rw [r.matches_iff] at hm
  have := hm i (by omega) (by simp [Form.fixes, h])
  have h2 : ¬ 24 ≤ i := by omega
  simpa [h2] using this

theorem rb_of_matches (hm : c &&& r.form.mask = r.matchWord) (hf : r.form ≠ .B) : Field.rb c = 0 := by
  rw [r.matches_iff] at hm
  have : c.extractLsb' 12 4 = 0#4 := by
    apply BitVec.eq_of_getLsbD_eq
    intro i hi
    have h16 : 12 + i < 16 := by omega
    have := hm (12 + i) (by omega) (by cases h : r.form <;> simp_all [Form.fixes])
    have h2 : ¬ 24 ≤ 12 + i := by omega
    simpa [h2, hi] using this
  unfold Field.rb; rw [this]; rfl

theorem rd_of_matches (hm : c &&& r.form.mask = r.matchWord) (hf : r.form = .S) : Field.rd c = 0 := by
  rw [r.matches_iff] at hm
  have : c.extractLsb' 20 4 = 0#4 := by
    apply BitVec.eq_of_getLsbD_eq
    intro i hi
    have h24 : 20 + i < 24 := by omega
    have := hm (20 + i) (by omega) (by simp [hf, Form.fixes, h24])
    have h2 : ¬ 24 ≤ 20 + i := by omega
    simpa [h2, hi] using this
  unfold Field.rd; rw [this]; rfl

theorem imm_of_matches (hm : c &&& r.form.mask = r.matchWord) (hf : r.form ≠ .I) : Field.imm c = 0 := by
  rw [r.matches_iff] at hm
  apply BitVec.eq_of_getLsbD_eq
  intro i hi
  have h64 : 32 + i < 64 := by omega
  have := hm (32 + i) (by omega) (by cases h : r.form <;> simp_all [Form.fixes])
  have h2 : ¬ 32 + i < 32 := by omega
  simpa [h2, hi, Field.imm] using this

end

end Sys2Proof
end

