-- ==== Sys2Proof/Laws/State.lean ====
section
/-! SUPPORT. One lemma per field and update: what reading a slot or a field of `STATUS` gives after each
shared operation of Machine/Flags.lean, Ops.lean and HostPort.lean. -/

namespace Sys2Proof.Machine

/-! ### `STATUS` as 32 bits -/

namespace Status

variable (k c : BitVec 4) (t : Bool) (w : BitVec 32) (i : Nat)

theorem getLsbD_kind : (kind w).getLsbD i = (decide (i < 4) && w.getLsbD i) := by simp [kind]
theorem getLsbD_comp : (comp w).getLsbD i = (decide (i < 4) && w.getLsbD (4 + i)) := by simp [comp]
theorem getLsbD_rest : (rest w).getLsbD i = (decide (i < 23) && w.getLsbD (9 + i)) := by simp [rest]

/-- Bit `i` of a status word after a write of `KIND` and `COMP`. -/
theorem getLsbD_setOutcome : (setOutcome k c w).getLsbD i =
    if i < 4 then k.getLsbD i else if i < 8 then c.getLsbD (i - 4) else w.getLsbD i := by
  have h1 := BitVec.getLsbD_append (x := w.extractLsb' 8 24 ++ c) (y := k) (i := i)
  have h2 := BitVec.getLsbD_append (x := w.extractLsb' 8 24) (y := c) (i := i - 4)
  refine h1.trans ?_
  rw [h2]
  by_cases h4 : i < 4
  · simp [h4]
  · by_cases h8 : i < 8
    · have : i - 4 < 4 := by omega
      simp [h4, h8, this]
    · have a : ¬ i - 4 < 4 := by omega
      have e : 8 + (i - 4 - 4) = i := by omega
      have b : i - 4 - 4 < 24 ∨ 32 ≤ i := by omega
      rcases b with b | b
      · simp [h4, h8, a, b, e]
      · have : ¬ i - 4 - 4 < 24 := by omega
        simp [h4, h8, a, this, BitVec.getLsbD_of_ge w i b]

/-- Bit `i` of a status word after a write of `T`. -/
theorem getLsbD_setT : (setT t w).getLsbD i = if i = 8 then t else w.getLsbD i := by
  have h1 := BitVec.getLsbD_append (x := w.extractLsb' 9 23 ++ BitVec.ofBool t) (y := w.extractLsb' 0 8) (i := i)
  have h2 := BitVec.getLsbD_append (x := w.extractLsb' 9 23) (y := BitVec.ofBool t) (i := i - 8)
  refine h1.trans ?_
  rw [h2]
  by_cases h8 : i < 8
  · have : i ≠ 8 := by omega
    simp [h8, this]
  · by_cases h9 : i = 8
    · subst h9; simp
    · have a : ¬ i - 8 < 1 := by omega
      have e : 9 + (i - 8 - 1) = i := by omega
      by_cases b : i < 32
      · have : i - 8 - 1 < 23 := by omega
        simp [h8, h9, a, this, e]
      · have : ¬ i - 8 - 1 < 23 := by omega
        simp [h8, h9, a, this, BitVec.getLsbD_of_ge w i (by omega)]

/-- Bit `i` of a status word as the host reads it. -/
theorem getLsbD_read : (read w).getLsbD i = (decide (i < 9) && w.getLsbD i) := by
  refine (BitVec.getLsbD_append (x := 0#23) (y := w.extractLsb' 0 9) (i := i)).trans ?_
  by_cases h : i < 9 <;> simp [h]

theorem kind_setOutcome : kind (setOutcome k c w) = k := by
  apply BitVec.eq_of_getLsbD_eq
  intro i hi
  rw [getLsbD_kind, getLsbD_setOutcome]
  simp [hi]

theorem comp_setOutcome : comp (setOutcome k c w) = c := by
  apply BitVec.eq_of_getLsbD_eq
  intro i hi
  have : 4 + i < 8 := by omega
  rw [getLsbD_comp, getLsbD_setOutcome]
  simp [hi, this]

theorem flagT_setOutcome : flagT (setOutcome k c w) = flagT w := by
  unfold flagT; rw [getLsbD_setOutcome]; simp

theorem rest_setOutcome : rest (setOutcome k c w) = rest w := by
  apply BitVec.eq_of_getLsbD_eq
  intro i hi
  have h1 : ¬ 9 + i < 4 := by omega
  have h2 : ¬ 9 + i < 8 := by omega
  simp [getLsbD_rest, getLsbD_setOutcome, h1, h2]

theorem kind_setT : kind (setT t w) = kind w := by
  apply BitVec.eq_of_getLsbD_eq
  intro i hi
  have : i ≠ 8 := by omega
  simp [getLsbD_kind, getLsbD_setT, this]

theorem comp_setT : comp (setT t w) = comp w := by
  apply BitVec.eq_of_getLsbD_eq
  intro i hi
  have : 4 + i ≠ 8 := by omega
  simp [getLsbD_comp, getLsbD_setT, this]

theorem flagT_setT : flagT (setT t w) = t := by
  unfold flagT; rw [getLsbD_setT]; simp

theorem rest_setT : rest (setT t w) = rest w := by
  apply BitVec.eq_of_getLsbD_eq
  intro i hi
  have : 9 + i ≠ 8 := by omega
  simp [getLsbD_rest, getLsbD_setT, this]

theorem kind_read : kind (read w) = kind w := by
  apply BitVec.eq_of_getLsbD_eq
  intro i hi
  have : i < 9 := by omega
  simp [getLsbD_kind, getLsbD_read, this]

theorem comp_read : comp (read w) = comp w := by
  apply BitVec.eq_of_getLsbD_eq
  intro i hi
  have : 4 + i < 9 := by omega
  simp [getLsbD_comp, getLsbD_read, this]

theorem flagT_read : flagT (read w) = flagT w := by
  unfold flagT; rw [getLsbD_read]; simp

/-- Bits 31:9 read as 0 (R18). -/
theorem rest_read : rest (read w) = 0 := by
  apply BitVec.eq_of_getLsbD_eq
  intro i hi
  simp [getLsbD_rest, getLsbD_read]

/-- A status word is its fields. -/
theorem ext_fields {v w : BitVec 32} (hk : kind v = kind w) (hc : comp v = comp w)
    (ht : flagT v = flagT w) (hr : rest v = rest w) : v = w := by
  have bits : ∀ i, i < 32 → v.getLsbD i = w.getLsbD i := by
    intro i hi
    have k1 := congrArg (fun x => BitVec.getLsbD x i) hk
    have c1 := congrArg (fun x => BitVec.getLsbD x (i - 4)) hc
    have r1 := congrArg (fun x => BitVec.getLsbD x (i - 9)) hr
    simp only [kind, comp, rest, BitVec.getLsbD_extractLsb'] at k1 c1 r1
    by_cases h4 : i < 4
    · simpa [h4] using k1
    · by_cases h8 : i < 8
      · have : i - 4 < 4 := by omega
        have e : 4 + (i - 4) = i := by omega
        simpa [this, e] using c1
      · by_cases h9 : i = 8
        · subst h9; exact ht
        · have : i - 9 < 23 := by omega
          have e : 9 + (i - 9) = i := by omega
          simpa [this, e] using r1
  exact BitVec.eq_of_getLsbD_eq bits

end Status

/-! ### Slots -/

variable (s : State) (i j : SlotIx) (v : Value) (k c : BitVec 4) (b : Bool) (r : Reply)

@[simp] theorem State.slot_setSlot_same : (s.setSlot i v).slot i = v := by
  simp [State.slot, State.setSlot]

theorem State.slot_setSlot (s : State) (i j : SlotIx) (v : Value) :
    (s.setSlot i v).slot j = if j = i then v else s.slot j := by
  by_cases h : j = i
  · subst h; simp
  · have h' : (i : Nat) ≠ j := fun e => h (Fin.ext e.symm)
    simp [State.slot, State.setSlot, h, h']

theorem State.slot_setSlot_ne {i j : SlotIx} (h : j ≠ i) : (s.setSlot i v).slot j = s.slot j := by
  simp [State.slot_setSlot, h]

@[simp] theorem State.status_setSlot : (s.setSlot i v).status = s.status := rfl
@[simp] theorem State.kind_setSlot : (s.setSlot i v).kind = s.kind := rfl
@[simp] theorem State.comp_setSlot : (s.setSlot i v).comp = s.comp := rfl
@[simp] theorem State.flagT_setSlot : (s.setSlot i v).flagT = s.flagT := rfl
@[simp] theorem State.statusRest_setSlot : (s.setSlot i v).statusRest = s.statusRest := rfl
@[simp] theorem State.pending_setSlot : (s.setSlot i v).pending = s.pending := rfl
@[simp] theorem State.replies_setSlot : (s.setSlot i v).replies = s.replies := rfl

@[simp] theorem State.slots_setOutcome : (s.setOutcome k c).slots = s.slots := rfl
@[simp] theorem State.slot_setOutcome : (s.setOutcome k c).slot i = s.slot i := rfl
@[simp] theorem State.kind_setOutcome : (s.setOutcome k c).kind = k := Status.kind_setOutcome k c _
@[simp] theorem State.comp_setOutcome : (s.setOutcome k c).comp = c := Status.comp_setOutcome k c _
@[simp] theorem State.flagT_setOutcome : (s.setOutcome k c).flagT = s.flagT := Status.flagT_setOutcome k c _
@[simp] theorem State.statusRest_setOutcome : (s.setOutcome k c).statusRest = s.statusRest :=
  Status.rest_setOutcome k c _
@[simp] theorem State.pending_setOutcome : (s.setOutcome k c).pending = s.pending := rfl
@[simp] theorem State.replies_setOutcome : (s.setOutcome k c).replies = s.replies := rfl

@[simp] theorem State.slots_setT : (s.setT b).slots = s.slots := rfl
@[simp] theorem State.slot_setT : (s.setT b).slot i = s.slot i := rfl
@[simp] theorem State.kind_setT : (s.setT b).kind = s.kind := Status.kind_setT b _
@[simp] theorem State.comp_setT : (s.setT b).comp = s.comp := Status.comp_setT b _
@[simp] theorem State.flagT_setT : (s.setT b).flagT = b := Status.flagT_setT b _
@[simp] theorem State.statusRest_setT : (s.setT b).statusRest = s.statusRest := Status.rest_setT b _
@[simp] theorem State.pending_setT : (s.setT b).pending = s.pending := rfl
@[simp] theorem State.replies_setT : (s.setT b).replies = s.replies := rfl

@[simp] theorem State.slots_reply : (s.reply r).slots = s.slots := rfl
@[simp] theorem State.slot_reply : (s.reply r).slot i = s.slot i := rfl
@[simp] theorem State.status_reply : (s.reply r).status = s.status := rfl
@[simp] theorem State.kind_reply : (s.reply r).kind = s.kind := rfl
@[simp] theorem State.comp_reply : (s.reply r).comp = s.comp := rfl
@[simp] theorem State.flagT_reply : (s.reply r).flagT = s.flagT := rfl
@[simp] theorem State.statusRest_reply : (s.reply r).statusRest = s.statusRest := rfl
@[simp] theorem State.statusWord_reply : (s.reply r).statusWord = s.statusWord := rfl
@[simp] theorem State.pending_reply : (s.reply r).pending = s.pending := rfl
@[simp] theorem State.replies_reply : (s.reply r).replies = s.replies ++ [r] := rfl

/-! ### The state with other pending transactions -/

variable (xs : List Transaction)

@[simp] theorem State.slot_withPending : ({ s with pending := xs } : State).slot i = s.slot i := rfl
@[simp] theorem State.kind_withPending : ({ s with pending := xs } : State).kind = s.kind := rfl
@[simp] theorem State.comp_withPending : ({ s with pending := xs } : State).comp = s.comp := rfl
@[simp] theorem State.flagT_withPending : ({ s with pending := xs } : State).flagT = s.flagT := rfl
@[simp] theorem State.statusRest_withPending : ({ s with pending := xs } : State).statusRest = s.statusRest := rfl

/-! ### Equality of states -/

/-- Two states with the same slots, fields of `STATUS`, pending transactions and replies are one. -/
theorem State.ext_slots {s t : State} (hs : ∀ i, t.slot i = s.slot i) (hk : t.kind = s.kind)
    (hc : t.comp = s.comp) (ht : t.flagT = s.flagT) (hr : t.statusRest = s.statusRest)
    (hp : t.pending = s.pending) (hq : t.replies = s.replies) : t = s := by
  cases s with | mk sl st p q =>
  cases t with | mk sl' st' p' q' =>
  have e1 : sl' = sl := by
    apply Vector.ext
    intro n hn
    exact hs ⟨n, hn⟩
  have e2 : st' = st := Status.ext_fields hk hc ht hr
  simp only at hp hq
  rw [e1, e2, hp, hq]

end Sys2Proof.Machine
end

