-- ==== Sys2Proof/Laws/Operands.lean ====
section
/-! SUPPORT. The operand checks of Machine/Operands.lean, each once: what it gives on the operand it takes,
what on any other, and an elimination lemma ("whatever holds of the error and of what it hands on holds of
its answer"). Then the frame of Machine/Ops.lean: how a command whose rule ended so ends. -/

namespace Sys2Proof.Machine

/-! ### Tags -/

section Tags

variable {v : Value} {P : Ending → Prop}

@[simp] theorem withBA_ba (b : List Byte) (k) : withBA (.ba b) k = k b := rfl
@[simp] theorem withWA_wa (w : List Word) (k) : withWA (.wa w) k = k w := rfl
@[simp] theorem withDA_da (d : Superword) (k) : withDA (.da d) k = k d := rfl
@[simp] theorem withCA_ca (c : Composite) (k) : withCA (.ca c) k = k c := rfl

theorem withBA_of_tag_ne (h : v.tag ≠ .BA) (k) : withBA v k = .raise .typeMismatch := by
  cases v <;> first | rfl | exact absurd rfl h
theorem withWA_of_tag_ne (h : v.tag ≠ .WA) (k) : withWA v k = .raise .typeMismatch := by
  cases v <;> first | rfl | exact absurd rfl h
theorem withDA_of_tag_ne (h : v.tag ≠ .DA) (k) : withDA v k = .raise .typeMismatch := by
  cases v <;> first | rfl | exact absurd rfl h
theorem withCA_of_tag_ne (h : v.tag ≠ .CA) (k) : withCA v k = .raise .typeMismatch := by
  cases v <;> first | rfl | exact absurd rfl h

theorem withBA_elim {k} (hr : P (.raise .typeMismatch)) (hk : ∀ b, v = .ba b → P (k b)) : P (withBA v k) := by
  cases v with
  | ba b => exact hk b rfl
  | _ => exact hr
theorem withWA_elim {k} (hr : P (.raise .typeMismatch)) (hk : ∀ w, v = .wa w → P (k w)) : P (withWA v k) := by
  cases v with
  | wa w => exact hk w rfl
  | _ => exact hr
theorem withDA_elim {k} (hr : P (.raise .typeMismatch)) (hk : ∀ d, v = .da d → P (k d)) : P (withDA v k) := by
  cases v with
  | da d => exact hk d rfl
  | _ => exact hr
theorem withCA_elim {k} (hr : P (.raise .typeMismatch)) (hk : ∀ c, v = .ca c → P (k c)) : P (withCA v k) := by
  cases v with
  | ca c => exact hk c rfl
  | _ => exact hr

end Tags

/-! ### Length, size, count, limb counts -/

section Checks

variable {P : Ending → Prop}

theorem checkLength_ok {unit : Nat} {b : List Byte} (h : b.length % unit = 0) (k) : checkLength unit b k = k := by
  simp [checkLength, h]
theorem checkLength_bad {unit : Nat} {b : List Byte} (h : b.length % unit ≠ 0) (k) :
    checkLength unit b k = .raise .lengthMismatch := by
  simp [checkLength, h]
theorem checkLength_elim {unit : Nat} {b : List Byte} {k} (hr : P (.raise .lengthMismatch))
    (hk : b.length % unit = 0 → P k) : P (checkLength unit b k) := by
  unfold checkLength; split
  · exact hk ‹_›
  · exact hr

theorem checkSize_ok {n : Int} (h0 : 0 < n) (h4 : n % 4 = 0) (k) : checkSize n k = k n.toNat := by
  have : ¬ n ≤ 0 := by omega
  simp [checkSize, this, h4]
theorem checkSize_bad {n : Int} (h : n ≤ 0 ∨ n % 4 ≠ 0) (k) : checkSize n k = .raise .sizeConstraint := by
  simp only [checkSize, if_pos h]
theorem checkSize_elim {n : Int} {k} (hr : P (.raise .sizeConstraint))
    (hk : 0 < n → n % 4 = 0 → P (k n.toNat)) : P (checkSize n k) := by
  unfold checkSize; split
  · exact hr
  · exact hk (by omega) (by omega)

theorem checkCount_ok {n : Int} (h : 0 ≤ n) (k) : checkCount n k = k n.toNat := by
  have : ¬ n < 0 := by omega
  simp [checkCount, this]
theorem checkCount_bad {n : Int} (h : n < 0) (k) : checkCount n k = .raise .countError := by
  simp [checkCount, h]
theorem checkCount_elim {n : Int} {k} (hr : P (.raise .countError)) (hk : 0 ≤ n → P (k n.toNat)) :
    P (checkCount n k) := by
  unfold checkCount; split
  · exact hr
  · exact hk (by omega)

theorem checkEqualLimbs_ok {a b : Superword} (h : a.length = b.length) (k) : checkEqualLimbs a b k = k := by
  simp [checkEqualLimbs, h]
theorem checkEqualLimbs_bad {a b : Superword} (h : a.length ≠ b.length) (k) :
    checkEqualLimbs a b k = .raise .consistencyError := by
  simp [checkEqualLimbs, h]
theorem checkEqualLimbs_elim {a b : Superword} {k} (hr : P (.raise .consistencyError))
    (hk : a.length = b.length → P k) : P (checkEqualLimbs a b k) := by
  unfold checkEqualLimbs; split
  · exact hk ‹_›
  · exact hr

theorem logicEnding_of_tag_ne {va vb : Value} (h : va.tag ≠ .DA ∨ vb.tag ≠ .DA) (f rd) :
    logicEnding f rd va vb = .raise .typeMismatch := by
  unfold logicEnding
  by_cases ha : va.tag = .DA
  · cases va with
    | da a => simpa using withDA_of_tag_ne (h.resolve_left (fun h' => h' ha)) _
    | _ => cases ha
  · exact withDA_of_tag_ne ha _
theorem logicEnding_ok {a b : Superword} (h : a.length = b.length) (f rd) :
    logicEnding f rd (.da a) (.da b) = .write rd (.da (f a b)) := by
  simp [logicEnding, checkEqualLimbs_ok h]
theorem logicEnding_bad {a b : Superword} (h : a.length ≠ b.length) (f rd) :
    logicEnding f rd (.da a) (.da b) = .raise .consistencyError := by
  simp [logicEnding, checkEqualLimbs_bad h]

end Checks

/-! ### The frame (R57) -/

section Frame

variable {i : Instr} {s : State} {c : Component} {rd : SlotIx} {v : Value} {k : ErrorKind} {b : Bool}

/-- A command whose rule ends in `V[rd] <- v` completes by writing `v`, and writes nothing else. -/
theorem completesWriting_of_finish (h : exec i s = finish c (.write rd v) s) : CompletesWriting i s rd v := by
  refine ⟨(s.setSlot rd v).succeed, h, ?_⟩
  refine ⟨by simp [State.succeed], fun j hj => ?_, by simp [State.succeed], by simp [State.succeed],
    by simp [State.succeed], by simp [State.succeed], rfl, rfl⟩
  simp [State.succeed, State.slot_setSlot_ne s v hj]

/-- A command whose rule ends in `STATUS.T <- b` completes so, and writes nothing else. -/
theorem completesSettingT_of_finish (h : exec i s = finish c (.setT b) s) : CompletesSettingT i s b :=
  ⟨(s.setT b).succeed, h, by simp [State.succeed], fun _ => rfl, by simp [State.succeed], by simp [State.succeed],
    by simp [State.succeed], rfl, rfl⟩

/-- A command whose rule ends in `raise k` writes `KIND` and `COMP`, and nothing else. -/
theorem endsInError_of_finish (h : exec i s = finish c (.raise k) s) : EndsInError i s k.code c.code :=
  ⟨s.raiseError k c, h, by simp [State.raiseError], by simp [State.raiseError], by simp [State.raiseError],
    fun _ => rfl, by simp [State.raiseError], rfl, rfl⟩

end Frame

end Sys2Proof.Machine
end

