-- ==== Sys2Proof/Laws/SreSteps.lean ====
section
/-! SUPPORT. The 1-bit primitives (44_shift_rotate.md R126 to R130): lengths, limbs from the pre-shift
neighbours, and the integers they compute; then their `n`-fold repetition (R131). -/

namespace Sys2Proof.Machine

/-! ### Limbs -/

theorem getLsbD_bitLimb (b : Bool) (i : Nat) : (bitLimb b).getLsbD i = (decide (i = 0) && b) := by
  unfold bitLimb
  rw [BitVec.getLsbD_setWidth]
  by_cases h : i = 0
  · subst h; simp
  · simp [h]

theorem getLsbD_bitLimb_shift31 (b : Bool) (i : Nat) :
    (bitLimb b <<< 31).getLsbD i = (decide (i = 31) && b) := by
  rw [BitVec.getLsbD_shiftLeft, getLsbD_bitLimb]
  by_cases h : i < 31
  · have : i ≠ 31 := by omega
    simp [h, this]
  · by_cases h' : i = 31
    · subst h'; simp
    · have a : ¬ i < 32 := by omega
      simp [h', a]

theorem toNat_bitLimb (b : Bool) : (bitLimb b).toNat = b.toNat := by cases b <;> rfl

/-- `mask32((x << 1) | carry)` as a number. -/
theorem toNat_shiftLeft_or_bit (x : Limb) (c : Bool) :
    (x <<< 1 ||| bitLimb c).toNat = 2 * x.toNat % 2 ^ 32 + c.toNat := by
  have e : (x <<< 1).toNat = (x.toNat % 2 ^ 31) <<< 1 := by
    rw [BitVec.toNat_shiftLeft, Nat.shiftLeft_eq, Nat.shiftLeft_eq]
    omega
  have hc : c.toNat < 2 ^ 1 := by cases c <;> decide
  rw [BitVec.toNat_or, toNat_bitLimb, e, ← Nat.shiftLeft_add_eq_or_of_lt hc, Nat.shiftLeft_eq]
  omega

/-- `(x >> 1) | (carry << 31)` as a number. -/
theorem toNat_shiftRight_or_bit (x : Limb) (c : Bool) :
    (x >>> 1 ||| bitLimb c <<< 31).toNat = x.toNat / 2 + c.toNat * 2 ^ 31 := by
  have hx : x.toNat / 2 < 2 ^ 31 := by have := x.isLt; omega
  have e : (bitLimb c <<< 31).toNat = c.toNat <<< 31 := by cases c <;> rfl
  have e1 : (x >>> 1).toNat = x.toNat / 2 := by simp [Nat.shiftRight_eq_div_pow]
  rw [BitVec.toNat_or, e, e1, Nat.or_comm, ← Nat.shiftLeft_add_eq_or_of_lt hx, Nat.shiftLeft_eq]
  omega

theorem toNat_bit31 (x : Limb) : (x.getLsbD 31).toNat = x.toNat / 2 ^ 31 := by
  have hx := x.isLt
  rw [BitVec.getLsbD, Nat.testBit_eq_decide_div_mod_eq]
  have c : x.toNat / 2 ^ 31 = 0 ∨ x.toNat / 2 ^ 31 = 1 := by omega
  rcases c with h | h <;> rw [h] <;> rfl

theorem toNat_bit0 (x : Limb) : (x.getLsbD 0).toNat = x.toNat % 2 := by
  rw [BitVec.getLsbD, Nat.testBit_eq_decide_div_mod_eq]
  have : x.toNat % 2 = 0 ∨ x.toNat % 2 = 1 := by omega
  rcases this with h | h <;> simp [h]

/-! ### Lengths -/

@[simp] theorem length_leftScan (s : Superword) : (leftScan s).1.length = s.length := by
  induction s with
  | nil => rfl
  | cons x rest ih => simp [leftScan, ih]
@[simp] theorem length_lsh1 (s : Superword) : (lsh1 s).length = s.length := length_leftScan s
@[simp] theorem length_rightScan (c : Bool) (s : Superword) : (rightScan c s).length = s.length := by
  induction s generalizing c with
  | nil => rfl
  | cons x rest ih => simp [rightScan, ih]
@[simp] theorem length_rshz1 (s : Superword) : (rshz1 s).length = s.length := length_rightScan false s
@[simp] theorem length_rshs1 (s : Superword) : (rshs1 s).length = s.length := by
  cases s with
  | nil => rfl
  | cons x rest => exact length_rightScan _ _
@[simp] theorem length_lrot1 (s : Superword) : (lrot1 s).length = s.length := by
  cases s with
  | nil => rfl
  | cons x rest => simp [lrot1]
@[simp] theorem length_rrot1 (s : Superword) : (rrot1 s).length = s.length := by
  cases s with
  | nil => rfl
  | cons x rest => simp [rrot1]

/-! ### Limbs from the pre-shift neighbours -/

/-- The carry out of the left scan is the pre-shift bit 31 of the first limb. -/
theorem leftScan_snd (s : Superword) : (leftScan s).2 = (s.getD 0 0).getLsbD 31 := by
  cases s <;> simp [leftScan]

/-- R126, "Equivalently": limb `i` is `mask32(s[i] << 1) | bit(s[i+1], 31)`, limbs beyond the last being 0. -/
theorem getD_lsh1 (s : Superword) (i : Nat) :
    (lsh1 s).getD i 0 = s.getD i 0 <<< 1 ||| bitLimb ((s.getD (i + 1) 0).getLsbD 31) := by
  unfold lsh1
  induction s generalizing i with
  | nil => simp [leftScan, bitLimb]
  | cons x rest ih =>
    cases i with
    | zero => simp [leftScan, leftScan_snd]
    | succ i => simpa [leftScan] using ih i

/-- R127, "Equivalently": limb `i` is `(s[i] >> 1) | (bit(s[i-1], 0) << 31)`, the carry in standing for the
limb before the first. -/
theorem getD_rightScan (c : Bool) (s : Superword) {i : Nat} (h : i < s.length) :
    (rightScan c s).getD i 0 =
      s.getD i 0 >>> 1 ||| bitLimb (if i = 0 then c else (s.getD (i - 1) 0).getLsbD 0) <<< 31 := by
  induction s generalizing c i with
  | nil => simp at h
  | cons x rest ih =>
    cases i with
    | zero => simp [rightScan]
    | succ i =>
      have h' : i < rest.length := by simpa using h
      rw [rightScan, List.getD_cons_succ, ih _ h', List.getD_cons_succ]
      cases i with
      | zero => simp
      | succ i => simp

/-- Two superwords of one length with the same limbs are equal. -/
theorem ext_getD {s t : Superword} (hl : s.length = t.length) (h : ∀ i, i < s.length → s.getD i 0 = t.getD i 0) :
    s = t := by
  apply List.ext_getElem hl
  intro i h1 h2
  have := h i h1
  simpa [List.getD_eq_getElem?_getD, h1, h2] using this

/-! ### Integers -/

/-- The left scan doubles: what it keeps and the carry it drops make `2 * val(s)`. -/
theorem val_leftScan (s : Superword) :
    (leftScan s).2.toNat * 2 ^ width s + val (leftScan s).1 = 2 * val s := by
  induction s with
  | nil => rfl
  | cons x rest ih =>
    have hw : width (leftScan rest).1 = width rest := by simp [width]
    have hx := x.isLt
    have e : (leftScan (x :: rest)).1 = (x <<< 1 ||| bitLimb (leftScan rest).2) :: (leftScan rest).1 := rfl
    have e2 : (leftScan (x :: rest)).2 = x.getLsbD 31 := rfl
    rw [e, e2, val_cons, val_cons, hw, toNat_shiftLeft_or_bit, toNat_bit31, width_cons, Nat.pow_add]
    have hd : 2 * x.toNat = x.toNat / 2 ^ 31 * 2 ^ 32 + 2 * x.toNat % 2 ^ 32 := by omega
    calc x.toNat / 2 ^ 31 * (2 ^ 32 * 2 ^ width rest)
          + ((2 * x.toNat % 2 ^ 32 + (leftScan rest).2.toNat) * 2 ^ width rest + val (leftScan rest).1)
        = (x.toNat / 2 ^ 31 * 2 ^ 32 + 2 * x.toNat % 2 ^ 32) * 2 ^ width rest
          + ((leftScan rest).2.toNat * 2 ^ width rest + val (leftScan rest).1) := by ring
      _ = 2 * (x.toNat * 2 ^ width rest + val rest) := by rw [← hd, ih]; ring

/-- R126: `val(LSH1(s)) = (2 * val(s)) mod 2^W`. -/
theorem val_lsh1 (s : Superword) : val (lsh1 s) = 2 * val s % 2 ^ width s := by
  have h := val_leftScan s
  have hl : val (lsh1 s) < 2 ^ width s := by
    have := val_lt (lsh1 s)
    simpa [width] using this
  rw [← h, Nat.mul_comm, Nat.mul_add_mod]
  exact (Nat.mod_eq_of_lt hl).symm

theorem val_rightScan (c : Bool) (s : Superword) :
    val (rightScan c s) = (c.toNat * 2 ^ width s + val s) / 2 := by
  induction s generalizing c with
  | nil => cases c <;> rfl
  | cons x rest ih =>
    have hw : width (rightScan (x.getLsbD 0) rest) = width rest := by simp [width]
    rw [rightScan, val_cons, hw, ih, toNat_shiftRight_or_bit, toNat_bit0, val_cons, width_cons, Nat.pow_add]
    have hd : x.toNat = 2 * (x.toNat / 2) + x.toNat % 2 := by omega
    have e : c.toNat * (2 ^ 32 * 2 ^ width rest) + (x.toNat * 2 ^ width rest + val rest)
        = 2 * ((x.toNat / 2 + c.toNat * 2 ^ 31) * 2 ^ width rest) + (x.toNat % 2 * 2 ^ width rest + val rest) := by
      conv => lhs; rw [hd]
      ring
    rw [e, Nat.mul_add_div (by omega)]

/-- R127: `val(RSHZ1(s)) = floor(val(s) / 2)`. -/
theorem val_rshz1 (s : Superword) : val (rshz1 s) = val s / 2 := by
  simpa [rshz1] using val_rightScan false s

/-- The top bit of a non-empty superword, as a number. -/
theorem toNat_bit31_head (x : Limb) (rest : Superword) :
    (x.getLsbD 31).toNat = val (x :: rest) / 2 ^ (width (x :: rest) - 1) := by
  have hl := val_lt rest
  have hp : 0 < 2 ^ width rest := Nat.two_pow_pos _
  have e : width (x :: rest) - 1 = width rest + 31 := by simp; omega
  rw [toNat_bit31, val_cons, e, Nat.pow_add, ← Nat.div_div_eq_div_mul, Nat.add_comm, Nat.add_mul_div_right _ _ hp,
    Nat.div_eq_of_lt hl, Nat.zero_add]

/-- The bottom bit of a non-empty superword, as a number. -/
theorem toNat_bit0_last (s : Superword) (h : s ≠ []) : ((s.getLast h).getLsbD 0).toNat = val s % 2 := by
  induction s with
  | nil => exact absurd rfl h
  | cons x rest ih =>
    cases rest with
    | nil => simpa [val_cons] using toNat_bit0 x
    | cons y rest =>
      rw [List.getLast_cons (List.cons_ne_nil y rest), ih (List.cons_ne_nil y rest)]
      have e : 2 ^ width (y :: rest) = 2 * 2 ^ (31 + width rest) := by
        rw [width_cons, ← Nat.pow_succ']; congr 1; omega
      rw [val_cons x, e, Nat.mul_left_comm, Nat.mul_add_mod]

/-- `RSHS1` at the level of integers: the sign bit, as a number, is shifted in at the top. -/
theorem val_rshs1_cons (x : Limb) (rest : Superword) :
    val (rshs1 (x :: rest)) = ((x.getLsbD 31).toNat * 2 ^ width (x :: rest) + val (x :: rest)) / 2 :=
  val_rightScan _ _

/-- Setting a clear bottom bit of a left-shifted superword adds it. -/
theorem val_setBottom (x : Limb) (rest : Superword) (b : Bool) :
    val ((leftScan (x :: rest)).1.modify rest.length (· ||| bitLimb b)) = val (lsh1 (x :: rest)) + b.toNat := by
  unfold lsh1
  induction rest generalizing x with
  | nil =>
    have e : x <<< 1 ||| bitLimb false ||| bitLimb b = x <<< 1 ||| bitLimb b := by simp [bitLimb]
    have h0 := toNat_shiftLeft_or_bit x b
    have h1 := toNat_shiftLeft_or_bit x false
    simp only [leftScan, List.length_nil, List.modify_zero_cons, val_cons, e, width_nil, val_nil, h0, h1]
    simp
  | cons y rest ih =>
    have e : (leftScan (x :: y :: rest)).1
        = (x <<< 1 ||| bitLimb (leftScan (y :: rest)).2) :: (leftScan (y :: rest)).1 := rfl
    rw [e, List.length_cons, List.modify_succ_cons, val_cons, val_cons, ih y]
    simp [width]; omega

/-- R129: `val(LROT1(s)) = ((2 * val(s)) mod 2^W) + bit(s[0], 31)`. -/
theorem val_lrot1_cons (x : Limb) (rest : Superword) :
    val (lrot1 (x :: rest)) =
      2 * val (x :: rest) % 2 ^ width (x :: rest) + val (x :: rest) / 2 ^ (width (x :: rest) - 1) := by
  rw [← toNat_bit31_head, ← val_lsh1]
  exact val_setBottom x rest _

/-- R130: `val(RROT1(s)) = floor(val(s) / 2) + bit(s[N-1], 0) * 2^(W-1)`. -/
theorem val_rrot1_cons (x : Limb) (rest : Superword) :
    val (rrot1 (x :: rest)) = val (x :: rest) / 2 + val (x :: rest) % 2 * 2 ^ (width (x :: rest) - 1) := by
  rw [← toNat_bit0_last (x :: rest) (List.cons_ne_nil x rest), ← val_rshz1]
  change val ((rshz1 (x :: rest)).modify 0 (· ||| bitLimb _ <<< 31)) = _
  generalize ((x :: rest).getLast (List.cons_ne_nil x rest)).getLsbD 0 = b
  have e0 : x >>> 1 ||| bitLimb false <<< 31 ||| bitLimb b <<< 31 = x >>> 1 ||| bitLimb b <<< 31 := by
    simp [bitLimb]
  have e : (rshz1 (x :: rest)).modify 0 (· ||| bitLimb b <<< 31)
      = (x >>> 1 ||| bitLimb b <<< 31) :: rightScan (x.getLsbD 0) rest := by
    simp only [rshz1, rightScan, List.modify_zero_cons, e0]
  have e' : rshz1 (x :: rest) = (x >>> 1 ||| bitLimb false <<< 31) :: rightScan (x.getLsbD 0) rest := rfl
  have hw : width (rightScan (x.getLsbD 0) rest) = width rest := by simp [width]
  have ew : width (x :: rest) - 1 = 31 + width rest := by simp
  rw [e, e', val_cons, val_cons, hw, toNat_shiftRight_or_bit, toNat_shiftRight_or_bit, ew, Nat.pow_add]
  simp only [Bool.toNat_false]
  ring

/-! ### Repetition (R131) -/

@[simp] theorem repeatStep_zero (f : Superword → Superword) (s : Superword) : repeatStep f 0 s = s := rfl
theorem repeatStep_succ (f : Superword → Superword) (n : Nat) (s : Superword) :
    repeatStep f (n + 1) s = f (repeatStep f n s) := by
  induction n generalizing s with
  | zero => rfl
  | succ n ih => exact ih (f s)

theorem repeatStep_add (f : Superword → Superword) (m n : Nat) (s : Superword) :
    repeatStep f (m + n) s = repeatStep f n (repeatStep f m s) := by
  induction n with
  | zero => rfl
  | succ n ih => rw [← Nat.add_assoc, repeatStep_succ, ih, repeatStep_succ]

theorem length_repeatStep {f : Superword → Superword} (hf : ∀ s, (f s).length = s.length) (n : Nat)
    (s : Superword) : (repeatStep f n s).length = s.length := by
  induction n generalizing s with
  | zero => rfl
  | succ n ih => rw [repeatStep, ih, hf]

theorem repeatStep_nil {f : Superword → Superword} (hf : f [] = []) (n : Nat) : repeatStep f n [] = [] := by
  induction n with
  | zero => rfl
  | succ n ih => rw [repeatStep, hf, ih]

/-- `n` left steps multiply by `2^n` modulo `2^W` (R132). -/
theorem val_repeat_lsh1 (n : Nat) (s : Superword) :
    val (repeatStep lsh1 n s) = val s * 2 ^ n % 2 ^ width s := by
  induction n with
  | zero => simpa using (Nat.mod_eq_of_lt (val_lt s)).symm
  | succ n ih =>
    have hw : width (repeatStep lsh1 n s) = width s := by
      simp [width, length_repeatStep length_lsh1]
    rw [repeatStep_succ, val_lsh1, hw, ih, Nat.mul_mod_mod, Nat.pow_succ]
    congr 1
    ring

/-- `n` zero-extending right steps divide by `2^n` (R133). -/
theorem val_repeat_rshz1 (n : Nat) (s : Superword) : val (repeatStep rshz1 n s) = val s / 2 ^ n := by
  induction n with
  | zero => simp
  | succ n ih => rw [repeatStep_succ, val_rshz1, ih, Nat.div_div_eq_div_mul, Nat.pow_succ]

end Sys2Proof.Machine
end

