-- ==== Sys2Proof/Laws/Sre.lean ====
section
/-! SUPPORT. The closed forms the Shift/Rotate Engine runs (44_shift_rotate.md R139) are the `n`-fold 1-bit
steps of R131, the reference of R140: `lsh_eq_repeat`, `rshz_eq_repeat`, `rshs_eq_repeat`, `lrot_eq_repeat`,
`rrot_eq_repeat`. Then what follows for the integers. -/

namespace Sys2Proof.Machine

namespace F

/-! ### Left shift -/

@[simp] theorem length_lsh (s : Superword) (n : Nat) : (lsh s n).length = s.length := by simp [lsh]
@[simp] theorem length_rsh (fill : Limb) (s : Superword) (n : Nat) : (rsh fill s n).length = s.length := by
  simp [rsh]
@[simp] theorem length_rshz (s : Superword) (n : Nat) : (rshz s n).length = s.length := length_rsh _ s n
@[simp] theorem length_rshs (s : Superword) (n : Nat) : (rshs s n).length = s.length := length_rsh _ s n
@[simp] theorem length_lrot (s : Superword) (n : Nat) : (lrot s n).length = s.length := by
  cases s <;> simp [lrot]
@[simp] theorem length_rrot (s : Superword) (n : Nat) : (rrot s n).length = s.length := length_lrot s _

/-- R139's limb `i`, for every index: limbs beyond the last are 0. -/
theorem getD_lsh (s : Superword) (n i : Nat) :
    (lsh s n).getD i 0 = s.getD (i + n / 32) 0 <<< (n % 32) ||| s.getD (i + n / 32 + 1) 0 >>> (32 - n % 32) := by
  by_cases h : i < s.length
  · simp [lsh, List.getD_eq_getElem?_getD, h]
  · have h1 : s.length ≤ i + n / 32 := by omega
    have h2 : s.length ≤ i + n / 32 + 1 := by omega
    have h3 : (lsh s n).length ≤ i := by simp; omega
    rw [List.getD_eq_default _ _ h3, List.getD_eq_default _ _ h1, List.getD_eq_default _ _ h2]
    simp

theorem lsh_zero (s : Superword) : lsh s 0 = s := by
  apply ext_getD (by simp)
  intro i _
  rw [getD_lsh]
  simp only [Nat.zero_div, Nat.zero_mod, Nat.add_zero, Nat.sub_zero, BitVec.shiftLeft_zero]
  rw [BitVec.ushiftRight_eq_zero (by omega), BitVec.or_zero]

/-- One more bit moved left inside a limb. -/
theorem left_limb_step (a b c : Limb) (r : Nat) (hr : r < 31) :
    (a <<< r ||| b >>> (32 - r)) <<< 1 ||| bitLimb ((b <<< r ||| c >>> (32 - r)).getLsbD 31)
      = a <<< (r + 1) ||| b >>> (32 - (r + 1)) := by
  apply BitVec.eq_of_getLsbD_eq
  intro j hj
  simp only [BitVec.getLsbD_or, BitVec.getLsbD_shiftLeft, BitVec.getLsbD_ushiftRight, getLsbD_bitLimb]
  by_cases h0 : j = 0
  · subst h0
    have h1 : ¬ 31 < r := by omega
    have h2 : c.getLsbD (32 - r + 31) = false := BitVec.getLsbD_of_ge c _ (by omega)
    simp [h1, h2]
  · have e1 : j - 1 - r = j - (r + 1) := by omega
    have e2 : 32 - r + (j - 1) = 32 - (r + 1) + j := by omega
    have h1 : ¬ j < 1 := by omega
    have h3 : j - 1 < 32 := by omega
    by_cases h2 : j < r + 1
    · have h4 : j - 1 < r := by omega
      simp [h0, hj, h2, h4, e2, h3]
    · have h4 : ¬ j - 1 < r := by omega
      simp [h0, hj, h2, h4, e1, e2, h3]

/-- The 32nd bit moves a whole limb. -/
theorem left_limb_step_31 (a b c : Limb) :
    (a <<< 31 ||| b >>> (32 - 31)) <<< 1 ||| bitLimb ((b <<< 31 ||| c >>> (32 - 31)).getLsbD 31) = b := by
  apply BitVec.eq_of_getLsbD_eq
  intro j hj
  simp only [BitVec.getLsbD_or, BitVec.getLsbD_shiftLeft, BitVec.getLsbD_ushiftRight, getLsbD_bitLimb]
  by_cases h0 : j = 0
  · subst h0
    simp
  · have h1 : ¬ j < 1 := by omega
    have h2 : j - 1 < 31 := by omega
    have h3 : j - 1 < 32 := by omega
    have e : 1 + (j - 1) = j := by omega
    simp [h0, hj, h2, h3, e]

theorem lsh1_lsh (s : Superword) (n : Nat) : lsh1 (lsh s n) = lsh s (n + 1) := by
  apply ext_getD (by simp)
  intro i _
  rw [getD_lsh1, getD_lsh, getD_lsh, getD_lsh]
  have ei : i + 1 + n / 32 = i + n / 32 + 1 := by omega
  rw [ei]
  by_cases h : n % 32 < 31
  · have q : (n + 1) / 32 = n / 32 := by omega
    have r : (n + 1) % 32 = n % 32 + 1 := by omega
    rw [q, r, left_limb_step _ _ _ _ h]
  · have h31 : n % 32 = 31 := by omega
    have q : (n + 1) / 32 = n / 32 + 1 := by omega
    have r : (n + 1) % 32 = 0 := by omega
    rw [q, r, h31, left_limb_step_31, ← Nat.add_assoc, BitVec.shiftLeft_zero,
      BitVec.ushiftRight_eq_zero (by omega), BitVec.or_zero]

/-- The closed left shift is the 1-bit left shift repeated (R131, R139, R140). -/
theorem lsh_eq_repeat (s : Superword) (n : Nat) : lsh s n = repeatStep lsh1 n s := by
  induction n with
  | zero => exact lsh_zero s
  | succ n ih => rw [repeatStep_succ, ← ih, lsh1_lsh]

/-! ### Right shifts -/

theorem getD_rsh {fill : Limb} {s : Superword} {n i : Nat} (h : i < s.length) :
    (rsh fill s n).getD i 0 =
      limbBelow fill s i (n / 32) >>> (n % 32) ||| limbBelow fill s i (n / 32 + 1) <<< (32 - n % 32) := by
  simp [rsh, List.getD_eq_getElem?_getD, h]

theorem rsh_zero (fill : Limb) (s : Superword) : rsh fill s 0 = s := by
  apply ext_getD (by simp)
  intro i h
  rw [getD_rsh (by simpa using h)]
  simp only [Nat.zero_div, Nat.zero_mod, Nat.sub_zero]
  rw [BitVec.shiftLeft_eq_zero (by omega)]
  simp [limbBelow]

/-- One more bit moved right inside a limb; the bit that comes in at the top is bit `r` of the limb before. -/
theorem right_limb_step (a b : Limb) (r : Nat) (hr : r < 31) :
    (a >>> r ||| b <<< (32 - r)) >>> 1 ||| bitLimb (b.getLsbD r) <<< 31
      = a >>> (r + 1) ||| b <<< (32 - (r + 1)) := by
  apply BitVec.eq_of_getLsbD_eq
  intro j hj
  rw [BitVec.getLsbD_or, getLsbD_bitLimb_shift31]
  simp only [BitVec.getLsbD_or, BitVec.getLsbD_shiftLeft, BitVec.getLsbD_ushiftRight]
  have e1 : r + (1 + j) = r + 1 + j := by omega
  have e2 : 1 + j - (32 - r) = j - (32 - (r + 1)) := by omega
  have e3 : 32 - (r + 1) = 31 - r := by omega
  rw [e1, e2, e3]
  by_cases h0 : j = 31
  · subst h0
    have h1 : ¬ 31 < 31 - r := by omega
    have h2 : 31 - (31 - r) = r := by omega
    simp [h1, h2]
  · have h1 : 1 + j < 32 := by omega
    by_cases h2 : j < 31 - r
    · have h3 : 1 + j < 32 - r := by omega
      simp [h0, hj, h1, h2, h3]
    · have h3 : ¬ 1 + j < 32 - r := by omega
      simp [h0, hj, h1, h2, h3]

/-- The 32nd bit moves a whole limb. -/
theorem right_limb_step_31 (a b : Limb) :
    (a >>> 31 ||| b <<< (32 - 31)) >>> 1 ||| bitLimb (b.getLsbD 31) <<< 31 = b := by
  apply BitVec.eq_of_getLsbD_eq
  intro j hj
  rw [BitVec.getLsbD_or, getLsbD_bitLimb_shift31]
  simp only [BitVec.getLsbD_or, BitVec.getLsbD_shiftLeft, BitVec.getLsbD_ushiftRight]
  have z : a.getLsbD (31 + (1 + j)) = false := BitVec.getLsbD_of_ge a _ (by omega)
  have e : 1 + j - (32 - 31) = j := by omega
  rw [z, e]
  by_cases h0 : j = 31
  · subst h0; simp
  · have h1 : 1 + j < 32 := by omega
    have h2 : ¬ 1 + j < 1 := by omega
    simp [h0, h1]

/-- Bit 0 of a shifted limb is bit `r` of the limb it starts in. -/
theorem getLsbD_zero_right_limb (a b : Limb) (r : Nat) (hr : r < 32) :
    (a >>> r ||| b <<< (32 - r)).getLsbD 0 = a.getLsbD r := by
  have h : 0 < 32 - r := by omega
  simp only [BitVec.getLsbD_or, BitVec.getLsbD_shiftLeft, BitVec.getLsbD_ushiftRight]
  simp [h]

/-- A limb all of whose bits are `c`. -/
def constLimb (c : Bool) : Limb := if c then 0xFFFFFFFF else 0

theorem getLsbD_constLimb (c : Bool) {i : Nat} (h : i < 32) : (constLimb c).getLsbD i = c := by
  cases c
  · simp [constLimb]
  · have : (0xFFFFFFFF#32) = BitVec.allOnes 32 := by decide
    simp only [constLimb, if_true]
    change (0xFFFFFFFF#32).getLsbD i = true
    rw [this, BitVec.getLsbD_allOnes]
    simp [h]

/-- One more step of a right scan whose carry in is the fill. -/
theorem rightScan_rsh (c : Bool) (s : Superword) (n : Nat) :
    rightScan c (rsh (constLimb c) s n) = rsh (constLimb c) s (n + 1) := by
  apply ext_getD (by simp)
  intro i hi
  have h : i < s.length := by simpa using hi
  rw [getD_rightScan c _ (by simpa using h), getD_rsh h, getD_rsh h]
  have hm : n % 32 < 32 := Nat.mod_lt _ (by omega)
  have carry : (if i = 0 then c else ((rsh (constLimb c) s n).getD (i - 1) 0).getLsbD 0)
      = (limbBelow (constLimb c) s i (n / 32 + 1)).getLsbD (n % 32) := by
    by_cases h0 : i = 0
    · subst h0
      simp [limbBelow, getLsbD_constLimb c hm]
    · have hb : limbBelow (constLimb c) s (i - 1) (n / 32) = limbBelow (constLimb c) s i (n / 32 + 1) := by
        unfold limbBelow
        by_cases hq : i - 1 < n / 32
        · have : i < n / 32 + 1 := by omega
          simp [hq, this]
        · have h1 : ¬ i < n / 32 + 1 := by omega
          have h2 : i - 1 - n / 32 = i - (n / 32 + 1) := by omega
          simp only [hq, h1, h2, if_false]
      rw [if_neg h0, getD_rsh (by omega), getLsbD_zero_right_limb _ _ _ hm, hb]
  rw [carry]
  by_cases hr : n % 32 < 31
  · have q : (n + 1) / 32 = n / 32 := by omega
    have r : (n + 1) % 32 = n % 32 + 1 := by omega
    rw [q, r, right_limb_step _ _ _ hr]
  · have h31 : n % 32 = 31 := by omega
    have q : (n + 1) / 32 = n / 32 + 1 := by omega
    have r : (n + 1) % 32 = 0 := by omega
    rw [q, r, h31, right_limb_step_31, BitVec.ushiftRight_zero, BitVec.shiftLeft_eq_zero (by omega), BitVec.or_zero]

/-- The closed zero-extending right shift is the 1-bit shift repeated. -/
theorem rshz_eq_repeat (s : Superword) (n : Nat) : rshz s n = repeatStep rshz1 n s := by
  induction n with
  | zero => exact rsh_zero _ s
  | succ n ih => rw [repeatStep_succ, ← ih]; exact (rightScan_rsh false s n).symm

/-- The top bit of a superword; false for the empty one. -/
def signBit (s : Superword) : Bool := (s.getD 0 0).getLsbD 31

theorem rshs_eq_rsh (s : Superword) (n : Nat) : rshs s n = rsh (constLimb (signBit s)) s n := rfl

/-- The top bit stays what it was under a right shift filled with it. -/
theorem signBit_rshs (s : Superword) (n : Nat) : signBit (rshs s n) = signBit s := by
  cases s with
  | nil => rfl
  | cons x rest =>
    have h0 : 0 < (x :: rest).length := by simp
    rw [rshs_eq_rsh]
    generalize hc : signBit (x :: rest) = c
    unfold signBit
    rw [getD_rsh h0]
    simp only [BitVec.getLsbD_or, BitVec.getLsbD_shiftLeft, BitVec.getLsbD_ushiftRight]
    have hx : x.getLsbD 31 = c := by simpa [signBit] using hc
    have hB : limbBelow (constLimb c) (x :: rest) 0 (n / 32 + 1) = constLimb c := by simp [limbBelow]
    rw [hB]
    by_cases hr : n % 32 = 0
    · rw [hr]
      by_cases hq : 0 < n / 32
      · simpa [limbBelow, hq] using getLsbD_constLimb c (i := 31) (by omega)
      · simp only [limbBelow, hq, if_false]
        simpa using hx
    · have hm : n % 32 < 32 := Nat.mod_lt _ (by omega)
      have h1 : ¬ 31 < 32 - n % 32 := by omega
      have h2 : 31 - (32 - n % 32) < 32 := by omega
      have h3 : (limbBelow (constLimb c) (x :: rest) 0 (n / 32)).getLsbD (n % 32 + 31) = false :=
        BitVec.getLsbD_of_ge _ _ (by omega)
      rw [h3, getLsbD_constLimb c h2]
      simp [h1]

theorem rshs1_eq_rightScan (s : Superword) : rshs1 s = rightScan (signBit s) s := by
  cases s <;> rfl

/-- The closed sign-extending right shift is the 1-bit shift repeated. -/
theorem rshs_eq_repeat (s : Superword) (n : Nat) : rshs s n = repeatStep rshs1 n s := by
  induction n with
  | zero => exact rsh_zero _ s
  | succ n ih =>
    rw [repeatStep_succ, ← ih, rshs1_eq_rightScan, signBit_rshs]
    exact (rightScan_rsh (signBit s) s n).symm

/-! ### Rotates -/

/-- `v` rotated left by `k` in `w` bits, as a number. -/
def rotNat (w v k : Nat) : Nat := v * 2 ^ k % 2 ^ w + v / 2 ^ (w - k)

/-- A number in two parts, the lower one of `m` bits: the rotate exchanges them. -/
theorem rotNat_split {m k a b : Nat} (hb : b < 2 ^ m) :
    rotNat (m + k) (a * 2 ^ m + b) k = b * 2 ^ k + a := by
  have hp : 0 < 2 ^ m := Nat.two_pow_pos m
  have hk : 0 < 2 ^ k := Nat.two_pow_pos k
  have e1 : (a * 2 ^ m + b) * 2 ^ k = 2 ^ (m + k) * a + b * 2 ^ k := by rw [Nat.pow_add]; ring
  have l : b * 2 ^ k < 2 ^ (m + k) := by
    rw [Nat.pow_add]; exact Nat.mul_lt_mul_of_pos_right hb hk
  have e2 : m + k - k = m := by omega
  unfold rotNat
  rw [e1, Nat.mul_add_mod, Nat.mod_eq_of_lt l, e2, Nat.add_comm (a * 2 ^ m), Nat.add_mul_div_right _ _ hp,
    Nat.div_eq_of_lt hb, Nat.zero_add]

theorem rotNat_zero {w v : Nat} (h : v < 2 ^ w) : rotNat w v 0 = v := by
  simp [rotNat, Nat.mod_eq_of_lt h, Nat.div_eq_of_lt h]

theorem rotNat_full (w v : Nat) : rotNat w v w = v := by
  simp [rotNat]

/-- One more bit: `LROT1` at the level of numbers takes the rotate by `k` to the rotate by `k + 1`. -/
theorem rotNat_succ {w v k : Nat} (h : v < 2 ^ w) (hk : k < w) :
    2 * rotNat w v k % 2 ^ w + rotNat w v k / 2 ^ (w - 1) = rotNat w v (k + 1) := by
  obtain ⟨m, rfl⟩ : ∃ m, w = m + 1 + k := ⟨w - k - 1, by omega⟩
  have hp : 0 < 2 ^ m := Nat.two_pow_pos m
  -- v = (2 * a + c) * 2 ^ m + d
  let d := v % 2 ^ m
  let u := v / 2 ^ m
  have hv : v = u * 2 ^ m + d := by rw [Nat.mul_comm]; exact (Nat.div_add_mod v (2 ^ m)).symm
  have hd : d < 2 ^ m := Nat.mod_lt _ hp
  have hu : u < 2 ^ (k + 1) := by
    apply Nat.div_lt_of_lt_mul
    rw [← Nat.pow_add]
    have : m + (k + 1) = m + 1 + k := by omega
    rwa [this]
  let a := u / 2
  let c := u % 2
  have huc : u = 2 * a + c := by omega
  have hc : c < 2 := Nat.mod_lt _ (by omega)
  have ha : a < 2 ^ k := by rw [Nat.pow_succ] at hu; omega
  have hb : c * 2 ^ m + d < 2 ^ (m + 1) := by
    have : c * 2 ^ m ≤ 1 * 2 ^ m := Nat.mul_le_mul_right _ (by omega)
    rw [Nat.pow_succ]; omega
  have r0 : rotNat (m + 1 + k) v k = (c * 2 ^ m + d) * 2 ^ k + a := by
    have : v = a * 2 ^ (m + 1) + (c * 2 ^ m + d) := by rw [hv, huc, Nat.pow_succ]; ring
    rw [this]; exact rotNat_split hb
  have r1 : rotNat (m + 1 + k) v (k + 1) = d * 2 ^ (k + 1) + u := by
    have e : m + 1 + k = m + (k + 1) := by omega
    rw [hv, e]; exact rotNat_split hd
  have hlow : d * 2 ^ k + a < 2 ^ (m + k) := by
    have h1 : (d + 1) * 2 ^ k ≤ 2 ^ m * 2 ^ k := Nat.mul_le_mul_right _ hd
    rw [Nat.pow_add]
    have : (d + 1) * 2 ^ k = d * 2 ^ k + 2 ^ k := by ring
    omega
  have e0 : (c * 2 ^ m + d) * 2 ^ k + a = 2 ^ (m + k) * c + (d * 2 ^ k + a) := by rw [Nat.pow_add]; ring
  have e1 : m + 1 + k - 1 = m + k := by omega
  have e2 : 2 ^ (m + 1 + k) = 2 * 2 ^ (m + k) := by rw [← Nat.pow_succ']; congr 1; omega
  rw [r0, r1, e0, e1, Nat.mul_add_div (Nat.two_pow_pos _), Nat.div_eq_of_lt hlow, e2]
  have e3 : 2 * (2 ^ (m + k) * c + (d * 2 ^ k + a)) = 2 * 2 ^ (m + k) * c + 2 * (d * 2 ^ k + a) := by ring
  rw [e3, Nat.mul_add_mod, Nat.mod_eq_of_lt (by omega), huc, Nat.pow_succ]
  ring

/-- The number an `LROT` of R139 gives. -/
theorem val_lrot (s : Superword) (n : Nat) : val (lrot s n) = rotNat (width s) (val s) (n % width s) := by
  cases s with
  | nil => simp [lrot, rotNat, Nat.mod_one]
  | cons x rest =>
    have hv := val_lt (x :: rest)
    have hw : 0 < width (x :: rest) := by simp
    have hk := Nat.mod_lt n hw
    have ew : 32 * (rest.length + 1) = width (x :: rest) := rfl
    have hdef : lrot (x :: rest) n = limbs (rest.length + 1)
        ((val (x :: rest) <<< (n % width (x :: rest)) |||
          val (x :: rest) >>> (width (x :: rest) - n % width (x :: rest))) % 2 ^ width (x :: rest)) := rfl
    rw [hdef]
    generalize width (x :: rest) = w at hv hk ew
    generalize val (x :: rest) = v at hv
    generalize n % w = k at hk
    rw [val_limbs, ew, Nat.mod_mod]
    have hlow : v >>> (w - k) < 2 ^ k := by
      rw [Nat.shiftRight_eq_div_pow]
      apply Nat.div_lt_of_lt_mul
      rw [← Nat.pow_add]
      have : w - k + k = w := by omega
      rwa [this]
    rw [← Nat.shiftLeft_add_eq_or_of_lt hlow, Nat.shiftLeft_eq, Nat.shiftRight_eq_div_pow]
    rw [Nat.shiftRight_eq_div_pow] at hlow
    have e : v * 2 ^ k % 2 ^ w = v % 2 ^ (w - k) * 2 ^ k := by
      have : 2 ^ w = 2 ^ (w - k) * 2 ^ k := by rw [← Nat.pow_add]; congr 1; omega
      rw [this, Nat.mul_mod_mul_right]
    have hr : v % 2 ^ (w - k) < 2 ^ (w - k) := Nat.mod_lt _ (Nat.two_pow_pos _)
    have hlt : v * 2 ^ k % 2 ^ w + v / 2 ^ (w - k) < 2 ^ w := by
      rw [e]
      have h1 : (v % 2 ^ (w - k) + 1) * 2 ^ k ≤ 2 ^ (w - k) * 2 ^ k := Nat.mul_le_mul_right _ hr
      have h2 : 2 ^ (w - k) * 2 ^ k = 2 ^ w := by rw [← Nat.pow_add]; congr 1; omega
      have h3 : (v % 2 ^ (w - k) + 1) * 2 ^ k = v % 2 ^ (w - k) * 2 ^ k + 2 ^ k := by ring
      omega
    have hsum : (v * 2 ^ k + v / 2 ^ (w - k)) % 2 ^ w = v * 2 ^ k % 2 ^ w + v / 2 ^ (w - k) := by
      rw [Nat.add_mod, Nat.mod_eq_of_lt (a := v / 2 ^ (w - k)) (by omega), Nat.mod_eq_of_lt hlt]
    rw [hsum, rotNat]

theorem width_eq_of_length {s t : Superword} (h : s.length = t.length) : width s = width t := by simp [width, h]

theorem lrot1_lrot (s : Superword) (n : Nat) : lrot1 (lrot s n) = lrot s (n + 1) := by
  cases s with
  | nil => rfl
  | cons x rest =>
    apply eq_of_val_eq (by simp)
    have hw : 0 < width (x :: rest) := by simp
    have hk := Nat.mod_lt n hw
    have hl : (lrot (x :: rest) n).length = (x :: rest).length := length_lrot _ _
    have hwid : width (lrot (x :: rest) n) = width (x :: rest) := width_eq_of_length hl
    have hval := val_lrot (x :: rest) n
    cases ht : lrot (x :: rest) n with
    | nil => rw [ht] at hl; simp at hl
    | cons y tl =>
      rw [ht] at hwid hval
      rw [val_lrot1_cons, val_lrot, hval, hwid, rotNat_succ (val_lt _) hk]
      by_cases hlast : n % width (x :: rest) + 1 < width (x :: rest)
      · rw [Nat.add_mod n 1, Nat.mod_eq_of_lt (a := 1) (by omega), Nat.mod_eq_of_lt hlast]
      · have e : n % width (x :: rest) + 1 = width (x :: rest) := by omega
        have e' : (n + 1) % width (x :: rest) = 0 := by
          rw [← Nat.mod_add_mod, e, Nat.mod_self]
        rw [e, e', rotNat_full, rotNat_zero (val_lt _)]

theorem lrot_zero (s : Superword) : lrot s 0 = s := by
  apply eq_of_val_eq (by simp)
  rw [val_lrot, Nat.zero_mod, rotNat_zero (val_lt s)]

/-- The closed left rotate is the 1-bit rotate repeated. -/
theorem lrot_eq_repeat (s : Superword) (n : Nat) : lrot s n = repeatStep lrot1 n s := by
  induction n with
  | zero => exact lrot_zero s
  | succ n ih => rw [repeatStep_succ, ← ih, lrot1_lrot]

theorem lrot_mod (s : Superword) (n : Nat) : lrot s (n % width s) = lrot s n := by
  apply eq_of_val_eq (by simp)
  rw [val_lrot, val_lrot, Nat.mod_mod]

/-- Only `n mod W` matters, so a multiple of `W` is the identity. -/
theorem lrot_of_mod_eq_zero {s : Superword} {n : Nat} (h : n % width s = 0) : lrot s n = s := by
  rw [← lrot_mod, h, lrot_zero]

/-- R130: `LROT1(RROT1(s)) = s`. -/
theorem lrot1_rrot1 (s : Superword) : lrot1 (rrot1 s) = s := by
  cases s with
  | nil => rfl
  | cons x rest =>
    apply eq_of_val_eq (by simp)
    have hl : (rrot1 (x :: rest)).length = (x :: rest).length := length_rrot1 _
    have hval := val_rrot1_cons x rest
    have hwid : width (rrot1 (x :: rest)) = width (x :: rest) := width_eq_of_length hl
    have hv := val_lt (x :: rest)
    cases ht : rrot1 (x :: rest) with
    | nil => rw [ht] at hl; simp at hl
    | cons y tl =>
      rw [ht] at hval hwid
      rw [val_lrot1_cons, hval, hwid]
      obtain ⟨w, hw⟩ : ∃ w, width (x :: rest) = w + 1 := ⟨31 + width rest, by simp; omega⟩
      rw [hw] at hv ⊢
      rw [Nat.add_sub_cancel]
      generalize val (x :: rest) = v at hv
      have hp : 0 < 2 ^ w := Nat.two_pow_pos w
      have hhalf : v / 2 < 2 ^ w := by rw [Nat.pow_succ] at hv; omega
      have e1 : 2 * (v / 2 + v % 2 * 2 ^ w) = 2 ^ (w + 1) * (v % 2) + 2 * (v / 2) := by rw [Nat.pow_succ]; ring
      have e2 : 2 * (v / 2) < 2 ^ (w + 1) := by rw [Nat.pow_succ]; omega
      rw [e1, Nat.mul_add_mod, Nat.mod_eq_of_lt e2, Nat.add_mul_div_right _ _ hp, Nat.div_eq_of_lt hhalf]
      omega

theorem repeat_lrot1_repeat_rrot1 (s : Superword) (n : Nat) :
    repeatStep lrot1 n (repeatStep rrot1 n s) = s := by
  induction n with
  | zero => rfl
  | succ n ih => rw [repeatStep_succ rrot1, repeatStep, lrot1_rrot1, ih]

theorem lrot_nil (n : Nat) : lrot [] n = [] := rfl

/-- The closed right rotate is the 1-bit rotate repeated. -/
theorem rrot_eq_repeat (s : Superword) (n : Nat) : rrot s n = repeatStep rrot1 n s := by
  cases s with
  | nil => exact (repeatStep_nil rfl n).symm
  | cons x rest =>
    have hl : (repeatStep rrot1 n (x :: rest)).length = (x :: rest).length :=
      length_repeatStep length_rrot1 n _
    have hw : width (repeatStep rrot1 n (x :: rest)) = width (x :: rest) := width_eq_of_length hl
    have hs := repeat_lrot1_repeat_rrot1 (x :: rest) n
    have h0 : 0 < width (x :: rest) := by simp
    generalize repeatStep rrot1 n (x :: rest) = t at hw hs
    unfold rrot
    rw [lrot_mod]
    conv => lhs; arg 1; rw [← hs]
    rw [lrot_eq_repeat, ← repeatStep_add, ← lrot_eq_repeat]
    apply lrot_of_mod_eq_zero
    rw [hw]
    have hlt := Nat.mod_lt n h0
    have e : n + (width (x :: rest) - n % width (x :: rest))
        = width (x :: rest) * (n / width (x :: rest)) + width (x :: rest) := by
      have := Nat.div_add_mod n (width (x :: rest))
      omega
    rw [e, Nat.mul_add_mod, Nat.mod_self]

end F

end Sys2Proof.Machine
end

