-- ==== Sys2Proof/Laws/Exec.lean ====
section
/-! SUPPORT. What a command can do, once for all 22 (30_encoding.md R57): `exec_shape` says that a command
reads its source slots and nothing else, that its rule ends in one of the three ways, with an error its row
of R168 lists, a value of the tag its destination has (R58), or `STATUS.T` for the validator alone (R19);
and that results fit where operands fit (R17). Every statement about all commands follows from it. -/

namespace Sys2Proof.Machine

/-- An ending a command may have. -/
def EndingAllowed (i : Instr) : Ending → Prop
  | .raise k => k.code ∈ mayRaise i
  | .write rd v => destination i = some (rd, v.tag)
  | .setT _ => ∃ ra, i = .isConsistentCarr ra

/-- What an ending writes fits a slot of `cap` bytes. -/
def EndingFits (cap : Option Nat) : Ending → Prop
  | .raise _ => True
  | .write _ v => v.fits cap = true
  | .setT _ => True

/-! ### Sizes (R17) -/

theorem Value.fits_some (v : Value) (n : Nat) :
    v.fits (some n) = true ↔ v.size ≤ n ∧ ∀ c, v = .ca c → c.length ≤ n / 4 := by
  cases v <;> simp [Value.fits]

/-- A value that is no composite fits where a value at least its size fits. -/
theorem Value.fits_of_size_le {v v' : Value} {cap : Option Nat} (hca : v'.tag ≠ .CA) (hs : v'.size ≤ v.size)
    (h : v.fits cap = true) : v'.fits cap = true := by
  cases cap with
  | none => rfl
  | some n =>
    rw [Value.fits_some] at h ⊢
    refine ⟨le_trans hs h.1, ?_⟩
    rintro c rfl
    exact absurd rfl hca

/-- The composite a builder makes of `b` fits where `b` fits. -/
theorem fits_ca_of_ba {S : Nat} {b : List Byte} {c : Composite} {cap : Option Nat} (h4 : 4 ≤ S)
    (hsize : (Value.ca c).size = b.length) (hlen : c.length = b.length / S)
    (h : (Value.ba b).fits cap = true) : (Value.ca c).fits cap = true := by
  cases cap with
  | none => rfl
  | some n =>
    rw [Value.fits_some] at h ⊢
    have hb : b.length ≤ n := h.1
    refine ⟨by rw [hsize]; exact hb, ?_⟩
    rintro c' h'
    cases h'
    rw [hlen]
    exact le_trans (Nat.div_le_div_left h4 (by omega)) (Nat.div_le_div_right hb)

theorem size_barr2carrB {S : Nat} {b : List Byte} (h0 : 0 < S) (h4 : S % 4 = 0) (h : b.length % S = 0) :
    (Value.ca (F.barr2carrB S b)).size = b.length := by
  rw [← F.length_carr2barrB, F.carr2barrB_barr2carrB h0 h4 h]

theorem size_barr2carrL {S : Nat} {b : List Byte} (h0 : 0 < S) (h4 : S % 4 = 0) (h : b.length % S = 0) :
    (Value.ca (F.barr2carrL S b)).size = b.length := by
  rw [← F.length_carr2barrL, F.carr2barrL_barr2carrL h0 h4 h]

/-! ### The shape of a command -/

/-- See the head of this file. -/
def Shape (i : Instr) : Prop :=
  ∃ (c : Component) (f : List Value → Ending), c.code = (Field.opcode (encode i)).extractLsb' 4 4 ∧
    (∀ s, exec i s = finish c (f ((sources i).map s.slot)) s) ∧
    (∀ vs, EndingAllowed i (f vs)) ∧
    ∀ cap vs, vs.length = (sources i).length → (∀ v ∈ vs, v.fits cap = true) → EndingFits cap (f vs)

theorem Shape.unary {i : Instr} {c : Component} {ra : SlotIx} (g : Value → Ending)
    (hc : c.code = (Field.opcode (encode i)).extractLsb' 4 4) (hs : sources i = [ra])
    (he : ∀ s, exec i s = finish c (g (s.slot ra)) s)
    (hg : ∀ v, EndingAllowed i (g v) ∧ ∀ cap, v.fits cap = true → EndingFits cap (g v)) : Shape i := by
  refine ⟨c, fun vs => g (vs.headD .u), hc, fun s => by rw [hs]; exact he s, fun vs => (hg _).1, ?_⟩
  intro cap vs hl hv
  rw [hs] at hl
  match vs, hl with
  | [v], _ => exact (hg v).2 cap (hv v (by simp))

theorem Shape.binary {i : Instr} {c : Component} {ra rb : SlotIx} (g : Value → Value → Ending)
    (hc : c.code = (Field.opcode (encode i)).extractLsb' 4 4) (hs : sources i = [ra, rb])
    (he : ∀ s, exec i s = finish c (g (s.slot ra) (s.slot rb)) s)
    (hg : ∀ v w, EndingAllowed i (g v w) ∧ ∀ cap, v.fits cap = true → EndingFits cap (g v w)) : Shape i := by
  refine ⟨c, fun vs => g (vs.headD .u) (vs.tail.headD .u), hc, fun s => by rw [hs]; exact he s,
    fun vs => (hg _ _).1, ?_⟩
  intro cap vs hl hv
  rw [hs] at hl
  match vs, hl with
  | [v, w], _ => exact (hg v w).2 cap (hv v (by simp))

/-- A unit whose operand is a `BA` and whose result is no composite and no larger. -/
theorem good_of_ba {i : Instr} {rd : SlotIx} {T : Tag} {u : Nat} (r : List Byte → Value)
    (hd : destination i = some (rd, T)) (h1 : (1 : BitVec 4) ∈ mayRaise i) (h2 : (2 : BitVec 4) ∈ mayRaise i)
    (ht : ∀ b, (r b).tag = T) (hT : T ≠ .CA) (hs : ∀ b, (r b).size ≤ b.length) (v : Value) :
    EndingAllowed i (withBA v fun a => checkLength u a (.write rd (r a))) ∧
      ∀ cap, v.fits cap = true → EndingFits cap (withBA v fun a => checkLength u a (.write rd (r a))) := by
  refine withBA_elim (P := fun e => EndingAllowed i e ∧ ∀ cap, v.fits cap = true → EndingFits cap e)
    ⟨h1, fun _ _ => trivial⟩ ?_
  rintro b rfl
  refine checkLength_elim (P := fun e => EndingAllowed i e ∧ ∀ cap, (Value.ba b).fits cap = true → EndingFits cap e)
    ⟨h2, fun _ _ => trivial⟩ fun _ => ?_
  exact ⟨by simp only [EndingAllowed, hd, ht], fun cap h =>
    Value.fits_of_size_le (v := .ba b) (v' := r b) (by rw [ht]; exact hT) (hs b) h⟩

/-- The builders: a `BA` to a `CA`. -/
theorem good_builder {i : Instr} {rd : SlotIx} {n : Int} (r : Nat → List Byte → Composite)
    (hd : destination i = some (rd, .CA)) (hm : mayRaise i = [1, 2, 3])
    (hs : ∀ S b, 0 < S → S % 4 = 0 → b.length % S = 0 → (Value.ca (r S b)).size = b.length)
    (hl : ∀ S b, (r S b).length = b.length / S) (v : Value) :
    EndingAllowed i (withBA v fun a => checkSize n fun S => checkLength S a (.write rd (.ca (r S a)))) ∧
      ∀ cap, v.fits cap = true →
        EndingFits cap (withBA v fun a => checkSize n fun S => checkLength S a (.write rd (.ca (r S a)))) := by
  refine withBA_elim (P := fun e => EndingAllowed i e ∧ ∀ cap, v.fits cap = true → EndingFits cap e)
    ⟨by simp [EndingAllowed, hm, ErrorKind.code], fun _ _ => trivial⟩ ?_
  rintro b rfl
  refine checkSize_elim (P := fun e => EndingAllowed i e ∧ ∀ cap, (Value.ba b).fits cap = true → EndingFits cap e)
    ⟨by simp [EndingAllowed, hm, ErrorKind.code], fun _ _ => trivial⟩ fun h0 h4 => ?_
  refine checkLength_elim (P := fun e => EndingAllowed i e ∧ ∀ cap, (Value.ba b).fits cap = true → EndingFits cap e)
    ⟨by simp [EndingAllowed, hm, ErrorKind.code], fun _ _ => trivial⟩ fun hb => ?_
  exact ⟨hd, fun cap h => fits_ca_of_ba (S := n.toNat) (by omega) (hs _ _ (by omega) (by omega) hb) (hl _ _) h⟩

/-- A unit whose operand is a `WA` and whose result is a `BA` of its bytes. -/
theorem good_of_wa {i : Instr} {rd : SlotIx} (r : List Word → List Byte)
    (hd : destination i = some (rd, .BA)) (h1 : (1 : BitVec 4) ∈ mayRaise i)
    (hs : ∀ w, (r w).length = 2 * w.length) (v : Value) :
    EndingAllowed i (withWA v fun a => .write rd (.ba (r a))) ∧
      ∀ cap, v.fits cap = true → EndingFits cap (withWA v fun a => .write rd (.ba (r a))) := by
  refine withWA_elim (P := fun e => EndingAllowed i e ∧ ∀ cap, v.fits cap = true → EndingFits cap e)
    ⟨h1, fun _ _ => trivial⟩ ?_
  rintro w rfl
  exact ⟨hd, fun cap h => Value.fits_of_size_le (v := .wa w) (v' := .ba (r w)) (by simp [Value.tag]) (le_of_eq (hs w)) h⟩

/-- A unit whose operand is a `CA` and whose result is a `BA` of its bytes. -/
theorem good_of_ca {i : Instr} {rd : SlotIx} (r : Composite → List Byte)
    (hd : destination i = some (rd, .BA)) (h1 : (1 : BitVec 4) ∈ mayRaise i)
    (hs : ∀ c, (r c).length = (Value.ca c).size) (v : Value) :
    EndingAllowed i (withCA v fun a => .write rd (.ba (r a))) ∧
      ∀ cap, v.fits cap = true → EndingFits cap (withCA v fun a => .write rd (.ba (r a))) := by
  refine withCA_elim (P := fun e => EndingAllowed i e ∧ ∀ cap, v.fits cap = true → EndingFits cap e)
    ⟨h1, fun _ _ => trivial⟩ ?_
  rintro c rfl
  exact ⟨hd, fun cap h => Value.fits_of_size_le (v := .ca c) (v' := .ba (r c)) (by simp [Value.tag]) (le_of_eq (hs c)) h⟩

/-- A unit whose operand is a `DA` and whose result is no composite and no larger. -/
theorem good_of_da {i : Instr} {rd : SlotIx} {T : Tag} (r : Superword → Value)
    (hd : destination i = some (rd, T)) (h1 : (1 : BitVec 4) ∈ mayRaise i) (ht : ∀ d, (r d).tag = T) (hT : T ≠ .CA)
    (hs : ∀ d, (r d).size ≤ 4 * d.length) (v : Value) :
    EndingAllowed i (withDA v fun a => .write rd (r a)) ∧
      ∀ cap, v.fits cap = true → EndingFits cap (withDA v fun a => .write rd (r a)) := by
  refine withDA_elim (P := fun e => EndingAllowed i e ∧ ∀ cap, v.fits cap = true → EndingFits cap e)
    ⟨h1, fun _ _ => trivial⟩ ?_
  rintro d rfl
  exact ⟨by simp only [EndingAllowed, hd, ht], fun cap h =>
    Value.fits_of_size_le (v := .da d) (v' := r d) (by rw [ht]; exact hT) (hs d) h⟩

/-- The three shifts. -/
theorem good_shift {i : Instr} {rd : SlotIx} {n : Int} (r : Superword → Nat → Superword)
    (hd : destination i = some (rd, .DA)) (hm : mayRaise i = [1, 4]) (hs : ∀ d n, (r d n).length = d.length)
    (v : Value) :
    EndingAllowed i (withDA v fun a => checkCount n fun k => .write rd (.da (r a k))) ∧
      ∀ cap, v.fits cap = true → EndingFits cap (withDA v fun a => checkCount n fun k => .write rd (.da (r a k))) := by
  refine withDA_elim (P := fun e => EndingAllowed i e ∧ ∀ cap, v.fits cap = true → EndingFits cap e)
    ⟨by simp [EndingAllowed, hm, ErrorKind.code], fun _ _ => trivial⟩ ?_
  rintro d rfl
  refine checkCount_elim (P := fun e => EndingAllowed i e ∧ ∀ cap, (Value.da d).fits cap = true → EndingFits cap e)
    ⟨by simp [EndingAllowed, hm, ErrorKind.code], fun _ _ => trivial⟩ fun _ => ?_
  exact ⟨hd, fun cap h => Value.fits_of_size_le (v := .da d) (v' := .da (r d n.toNat)) (by simp [Value.tag])
    (by simp [Value.size, hs]) h⟩

/-- The three binary logic commands. -/
theorem good_logic {i : Instr} {rd : SlotIx} (r : Superword → Superword → Superword)
    (hd : destination i = some (rd, .DA)) (hm : mayRaise i = [1, 5])
    (hs : ∀ a b, (r a b).length ≤ a.length) (v w : Value) :
    EndingAllowed i (logicEnding r rd v w) ∧ ∀ cap, v.fits cap = true → EndingFits cap (logicEnding r rd v w) := by
  unfold logicEnding
  refine withDA_elim (P := fun e => EndingAllowed i e ∧ ∀ cap, v.fits cap = true → EndingFits cap e)
    ⟨by simp [EndingAllowed, hm, ErrorKind.code], fun _ _ => trivial⟩ ?_
  rintro a rfl
  refine withDA_elim (P := fun e => EndingAllowed i e ∧ ∀ cap, (Value.da a).fits cap = true → EndingFits cap e)
    ⟨by simp [EndingAllowed, hm, ErrorKind.code], fun _ _ => trivial⟩ fun b _ => ?_
  refine checkEqualLimbs_elim
    (P := fun e => EndingAllowed i e ∧ ∀ cap, (Value.da a).fits cap = true → EndingFits cap e)
    ⟨by simp [EndingAllowed, hm, ErrorKind.code], fun _ _ => trivial⟩ fun _ => ?_
  refine ⟨hd, fun cap h => Value.fits_of_size_le (v := .da a) (v' := .da (r a b)) (by simp [Value.tag]) ?_ h⟩
  simpa [Value.size] using hs a b

theorem length_zipWith_le (f : Limb → Limb → Limb) (a b : Superword) : (List.zipWith f a b).length ≤ a.length := by
  simp

/-- Every command has the shape described at the head of this file. -/
theorem exec_shape (i : Instr) : Shape i := by
  cases i with
  | barr2warrL rd ra =>
    exact .unary _ (by simp [encode, encodeU, Component.code]) rfl (fun _ => rfl)
      (good_of_ba (fun b => .wa (F.barr2warrL b)) rfl (by simp [mayRaise]) (by simp [mayRaise]) (fun _ => rfl) (by decide)
        (fun b => by simp [Value.size]; omega))
  | barr2warrB rd ra =>
    exact .unary _ (by simp [encode, encodeU, Component.code]) rfl (fun _ => rfl)
      (good_of_ba (fun b => .wa (F.barr2warrB b)) rfl (by simp [mayRaise]) (by simp [mayRaise]) (fun _ => rfl) (by decide)
        (fun b => by simp [Value.size]; omega))
  | warr2barrL rd ra =>
    exact .unary _ (by simp [encode, encodeU, Component.code]) rfl (fun _ => rfl)
      (good_of_wa F.warr2barrL rfl (by simp [mayRaise]) F.length_warr2barrL)
  | warr2barrB rd ra =>
    exact .unary _ (by simp [encode, encodeU, Component.code]) rfl (fun _ => rfl)
      (good_of_wa F.warr2barrB rfl (by simp [mayRaise]) F.length_warr2barrB)
  | barr2dwarrL rd ra =>
    exact .unary _ (by simp [encode, encodeU, Component.code]) rfl (fun _ => rfl)
      (good_of_ba (fun b => .da (F.barr2dwarrL b)) rfl (by simp [mayRaise]) (by simp [mayRaise]) (fun _ => rfl) (by decide)
        (fun b => by simp [Value.size]; omega))
  | barr2dwarrB rd ra =>
    exact .unary _ (by simp [encode, encodeU, Component.code]) rfl (fun _ => rfl)
      (good_of_ba (fun b => .da (F.barr2dwarrB b)) rfl (by simp [mayRaise]) (by simp [mayRaise]) (fun _ => rfl) (by decide)
        (fun b => by simp [Value.size]; omega))
  | dwarr2barrL rd ra =>
    exact .unary _ (by simp [encode, encodeU, Component.code]) rfl (fun _ => rfl)
      (good_of_da (fun d => .ba (F.dwarr2barrL d)) rfl (by simp [mayRaise]) (fun _ => rfl) (by decide)
        (fun d => le_of_eq (F.length_dwarr2barrL d)))
  | dwarr2barrB rd ra =>
    exact .unary _ (by simp [encode, encodeU, Component.code]) rfl (fun _ => rfl)
      (good_of_da (fun d => .ba (F.dwarr2barrB d)) rfl (by simp [mayRaise]) (fun _ => rfl) (by decide)
        (fun d => le_of_eq (F.length_dwarr2barrB d)))
  | barr2carrL rd ra n =>
    exact .unary _ (by simp [encode, encodeI, Component.code]) rfl (fun _ => rfl)
      (good_builder F.barr2carrL rfl rfl (fun _ _ h0 h4 h => size_barr2carrL h0 h4 h) F.length_barr2carrL)
  | barr2carrB rd ra n =>
    exact .unary _ (by simp [encode, encodeI, Component.code]) rfl (fun _ => rfl)
      (good_builder F.barr2carrB rfl rfl (fun _ _ h0 h4 h => size_barr2carrB h0 h4 h) F.length_barr2carrB)
  | carr2barrL rd ra =>
    exact .unary _ (by simp [encode, encodeU, Component.code]) rfl (fun _ => rfl)
      (good_of_ca F.carr2barrL rfl (by simp [mayRaise]) F.length_carr2barrL)
  | carr2barrB rd ra =>
    exact .unary _ (by simp [encode, encodeU, Component.code]) rfl (fun _ => rfl)
      (good_of_ca F.carr2barrB rfl (by simp [mayRaise]) F.length_carr2barrB)
  | isConsistentCarr ra =>
    refine .unary (c := .cb) (fun v => withCA v fun a => .setT (F.isConsistentCarr a))
      (by simp [encode, encodeS, Component.code]) rfl (fun _ => rfl) fun v => ?_
    exact withCA_elim (P := fun e => EndingAllowed _ e ∧ ∀ cap, v.fits cap = true → EndingFits cap e)
      ⟨by simp [EndingAllowed, mayRaise, ErrorKind.code], fun _ _ => trivial⟩ fun c _ => ⟨⟨ra, rfl⟩, fun _ _ => trivial⟩
  | dwarrAnd rd ra rb =>
    exact .binary _ (by simp [encode, encodeB, Component.code]) rfl (fun _ => rfl)
      (good_logic F.dwarrAnd rfl rfl (length_zipWith_le _))
  | dwarrOr rd ra rb =>
    exact .binary _ (by simp [encode, encodeB, Component.code]) rfl (fun _ => rfl)
      (good_logic F.dwarrOr rfl rfl (length_zipWith_le _))
  | dwarrXor rd ra rb =>
    exact .binary _ (by simp [encode, encodeB, Component.code]) rfl (fun _ => rfl)
      (good_logic F.dwarrXor rfl rfl (length_zipWith_le _))
  | dwarrNot rd ra =>
    exact .unary _ (by simp [encode, encodeU, Component.code]) rfl (fun _ => rfl)
      (good_of_da (fun d => .da (F.dwarrNot d)) rfl (by simp [mayRaise]) (fun _ => rfl) (by decide)
        (fun d => by simp [Value.size, F.dwarrNot]))
  | dwarrLShift rd ra n =>
    exact .unary _ (by simp [encode, encodeI, Component.code]) rfl (fun _ => rfl)
      (good_shift F.lsh rfl rfl F.length_lsh)
  | dwarrRShiftZ rd ra n =>
    exact .unary _ (by simp [encode, encodeI, Component.code]) rfl (fun _ => rfl)
      (good_shift F.rshz rfl rfl F.length_rshz)
  | dwarrRShiftS rd ra n =>
    exact .unary _ (by simp [encode, encodeI, Component.code]) rfl (fun _ => rfl)
      (good_shift F.rshs rfl rfl F.length_rshs)
  | dwarrLRotate rd ra n =>
    exact .unary _ (by simp [encode, encodeI, Component.code]) rfl (fun _ => rfl)
      (good_of_da (fun d => .da (if 0 ≤ n then F.lrot d n.toNat else F.rrot d (-n).toNat)) rfl
        (by simp [mayRaise]) (fun _ => rfl) (by decide) (fun d => by split <;> simp [Value.size]))
  | dwarrRRotate rd ra n =>
    exact .unary _ (by simp [encode, encodeI, Component.code]) rfl (fun _ => rfl)
      (good_of_da (fun d => .da (if 0 ≤ n then F.rrot d n.toNat else F.lrot d (-n).toNat)) rfl
        (by simp [mayRaise]) (fun _ => rfl) (by decide) (fun d => by split <;> simp [Value.size]))

/-- A command always completes with a next state (R41). -/
theorem exec_next (i : Instr) (s : State) : ∃ t, exec i s = .next t := by
  obtain ⟨c, f, _, he, _⟩ := exec_shape i
  exact ⟨_, he s⟩

/-- What a next state of a command is: the conclusion of an allowed ending, read off the source slots. -/
theorem exec_cases {i : Instr} {s t : State} (h : exec i s = .next t) :
    ∃ (c : Component) (e : Ending), c.code = (Field.opcode (encode i)).extractLsb' 4 4 ∧ EndingAllowed i e ∧
      t = s.conclude c e := by
  obtain ⟨c, f, hc, he, ha, _⟩ := exec_shape i
  rw [he s] at h
  cases h
  exact ⟨c, _, hc, ha _, rfl⟩

/-! ### Facts the statements about all commands use -/

@[simp] theorem ErrorKind.code_ne_zero (k : ErrorKind) : ¬ k.code = 0#4 := by cases k <;> decide

/-- The unit of a command is bits 31:28 of its word (R63). -/
theorem unit_of_opcode (i : Instr) : (Field.opcode (encode i)).extractLsb' 4 4 = (encode i).extractLsb' 28 4 := by
  unfold Field.opcode
  apply BitVec.eq_of_getLsbD_eq
  intro j hj
  have : 4 + j < 8 := by omega
  simp [hj, this, ← Nat.add_assoc]

section
variable (c : Component) (e : Ending) (s : State)

@[simp] theorem State.pending_conclude : (s.conclude c e).pending = s.pending := by cases e <;> rfl
@[simp] theorem State.replies_conclude : (s.conclude c e).replies = s.replies := by cases e <;> rfl
@[simp] theorem State.statusRest_conclude : (s.conclude c e).statusRest = s.statusRest := by
  cases e <;> simp [State.conclude, State.raiseError, State.succeed]

end

@[simp] theorem State.kind_conclude_raise (c : Component) (k : ErrorKind) (s : State) :
    (s.conclude c (.raise k)).kind = k.code := by simp [State.conclude, State.raiseError]
@[simp] theorem State.comp_conclude_raise (c : Component) (k : ErrorKind) (s : State) :
    (s.conclude c (.raise k)).comp = c.code := by simp [State.conclude, State.raiseError]
@[simp] theorem State.kind_conclude_write (c : Component) (rd : SlotIx) (v : Value) (s : State) :
    (s.conclude c (.write rd v)).kind = 0 := by simp [State.conclude, State.succeed]
@[simp] theorem State.kind_conclude_setT (c : Component) (b : Bool) (s : State) :
    (s.conclude c (.setT b)).kind = 0 := by simp [State.conclude, State.succeed]

/-! ### The fields of a command word, as the statements read them -/

theorem slotField_rd (c : BitVec 64) : slotField c 20 = Field.rd c := by
  apply Fin.ext; simp [slotField, Field.rd, BitVec.extractLsb', Nat.shiftRight_eq_div_pow]
theorem slotField_ra (c : BitVec 64) : slotField c 16 = Field.ra c := by
  apply Fin.ext; simp [slotField, Field.ra, BitVec.extractLsb', Nat.shiftRight_eq_div_pow]
theorem slotField_rb (c : BitVec 64) : slotField c 12 = Field.rb c := by
  apply Fin.ext; simp [slotField, Field.rb, BitVec.extractLsb', Nat.shiftRight_eq_div_pow]
theorem immField_eq (c : BitVec 64) : immField c = Field.simm c := by
  have hc := c.isLt
  have e : (Field.imm c).toNat = c.toNat / 2 ^ 32 := by
    simp [Field.imm, BitVec.extractLsb', Nat.shiftRight_eq_div_pow]; omega
  simp only [immField, Field.simm, BitVec.toInt_eq_toNat_cond, e]
  split <;> split <;> omega

end Sys2Proof.Machine
end

