-- ==== Sys2Proof/Laws/HostPort.lean ====
section
/-! SUPPORT. What one step does, by the transaction at the head of the pending ones (20_memory.md R38 to
R42, 70_reset_and_hazards.md R185): one lemma per transaction, and `step_next`, which says that a step always
gives a next state. -/

namespace Sys2Proof.Machine

variable {cap : Option Nat} {s t : State} {rest : List Transaction}

theorem stepWith_idle (h : s.pending = []) : stepWith cap s = .next s := by
  unfold stepWith; rw [h]

theorem stepWith_cons {x : Transaction} (h : s.pending = x :: rest) :
    stepWith cap s = serve cap x { s with pending := rest } := by
  unfold stepWith; rw [h]

theorem serve_hcmd_ok {c : BitVec 64} {i : Instr} (hd : decode c = .ok i) (he : exec i s = .next t) :
    serve cap (.hcmd c) s = .next (t.reply (.status t.statusWord)) := by
  simp only [serve, hcmd, hd, he, replyStatus]

theorem serve_hcmd_error {c : BitVec 64} {e : IllegalWord} (hd : decode c = .error e) :
    serve cap (.hcmd c) s =
      .next ((s.raiseError .illegalCommand .shell).reply (.status (s.raiseError .illegalCommand .shell).statusWord)) := by
  simp only [serve, hcmd, hd, replyStatus]

/-- A command word at the port: it decodes and runs, or it is illegal. -/
theorem serve_hcmd_cases {c : BitVec 64} {o} (h : serve cap (.hcmd c) s = o) :
    (∃ i u, decode c = .ok i ∧ exec i s = .next u ∧ o = .next (u.reply (.status u.statusWord))) ∨
    (∃ e, decode c = .error e ∧
      o = .next ((s.raiseError .illegalCommand .shell).reply
        (.status (s.raiseError .illegalCommand .shell).statusWord))) := by
  cases hd : decode c with
  | ok i =>
    obtain ⟨u, hu⟩ := exec_next i s
    exact .inl ⟨i, u, rfl, hu, by rw [← h, serve_hcmd_ok hd hu]⟩
  | error e => exact .inr ⟨e, rfl, by rw [← h, serve_hcmd_error hd]⟩

/-- Every transaction completes (R41, R42). -/
theorem serve_next (cap : Option Nat) (x : Transaction) (s : State) : ∃ t, serve cap x s = .next t := by
  cases x with
  | hcmd c =>
    rcases serve_hcmd_cases (cap := cap) (c := c) (s := s) rfl with ⟨i, u, _, _, h⟩ | ⟨e, _, h⟩
    · exact ⟨_, h⟩
    · exact ⟨_, h⟩
  | _ => exact ⟨_, rfl⟩

theorem stepWith_next (cap : Option Nat) (s : State) : ∃ t, stepWith cap s = .next t := by
  cases h : s.pending with
  | nil => exact ⟨s, stepWith_idle h⟩
  | cons x rest =>
    rw [stepWith_cons h]
    exact serve_next cap x _

theorem step_next (s : State) : ∃ t, step s = .next t := stepWith_next _ s

/-- The end of a command does not look at the transactions still pending. -/
theorem conclude_withPending (c : Component) (e : Ending) (s : State) (p : List Transaction) :
    State.conclude c e { s with pending := p } = { s.conclude c e with pending := p } := by
  cases e <;> rfl

/-- Serving a transaction neither reads nor writes the transactions still pending. -/
theorem serve_withPending (cap : Option Nat) (x : Transaction) (s : State) (p : List Transaction) :
    ∃ t, serve cap x s = .next t ∧ t.pending = s.pending ∧
      serve cap x { s with pending := p } = .next { t with pending := p } := by
  cases x with
  | hwrite i v => simp only [serve, hwrite]; split <;> exact ⟨_, rfl, rfl, rfl⟩
  | hread i => exact ⟨_, rfl, rfl, rfl⟩
  | hstatus => exact ⟨_, rfl, rfl, rfl⟩
  | hreset => exact ⟨_, rfl, rfl, rfl⟩
  | hcmd c =>
    simp only [serve, hcmd]
    cases hd : decode c with
    | error e => exact ⟨_, rfl, rfl, rfl⟩
    | ok i =>
      obtain ⟨_, f, _, he, _⟩ := exec_shape i
      simp only [he, finish, replyStatus]
      refine ⟨_, rfl, by simp, ?_⟩
      rw [conclude_withPending]; rfl

end Sys2Proof.Machine
end

