-- ==== Sys2Proof/Laws/PerInstr.lean ====
section
/-! SUPPORT. Facts about every instruction as syntax, one lemma per constructor. Family `EncodesToRow`: the
word `encode` gives is the command of a row of R53 ("a word `c` is the command of a row iff
`c & mask = match`", R51), and the row's opcode stands in bits 31:24. -/

namespace Sys2Proof.Laws.EncodesToRow

open Sys2Proof

def Statement (i : Instr) : Prop :=
  ∃ r ∈ opRows, r.opcode = Field.opcode (encode i) ∧ encode i &&& r.form.mask = r.matchWord

/-- A word of a row's opcode whose unused fields are 0 is the command of that row. -/
theorem of_row {i : Instr} (r : OpRow) (hr : r ∈ opRows) {im : BitVec 32} {d a b : SlotIx}
    (he : encode i = Field.ofFields im r.opcode d a b) (hz : r.form.fieldsZero im d b) : Statement i :=
  ⟨r, hr, by rw [he, Field.opcode_ofFields], by rw [he]; exact ofFields_matches r hz⟩

theorem barr2warrL (rd ra : SlotIx) : Statement (.barr2warrL rd ra) :=
  of_row (opRows[0]'(by decide)) (List.getElem_mem _) rfl ⟨rfl, rfl⟩
theorem barr2warrB (rd ra : SlotIx) : Statement (.barr2warrB rd ra) :=
  of_row (opRows[1]'(by decide)) (List.getElem_mem _) rfl ⟨rfl, rfl⟩
theorem warr2barrL (rd ra : SlotIx) : Statement (.warr2barrL rd ra) :=
  of_row (opRows[2]'(by decide)) (List.getElem_mem _) rfl ⟨rfl, rfl⟩
theorem warr2barrB (rd ra : SlotIx) : Statement (.warr2barrB rd ra) :=
  of_row (opRows[3]'(by decide)) (List.getElem_mem _) rfl ⟨rfl, rfl⟩
theorem barr2dwarrL (rd ra : SlotIx) : Statement (.barr2dwarrL rd ra) :=
  of_row (opRows[4]'(by decide)) (List.getElem_mem _) rfl ⟨rfl, rfl⟩
theorem barr2dwarrB (rd ra : SlotIx) : Statement (.barr2dwarrB rd ra) :=
  of_row (opRows[5]'(by decide)) (List.getElem_mem _) rfl ⟨rfl, rfl⟩
theorem dwarr2barrL (rd ra : SlotIx) : Statement (.dwarr2barrL rd ra) :=
  of_row (opRows[6]'(by decide)) (List.getElem_mem _) rfl ⟨rfl, rfl⟩
theorem dwarr2barrB (rd ra : SlotIx) : Statement (.dwarr2barrB rd ra) :=
  of_row (opRows[7]'(by decide)) (List.getElem_mem _) rfl ⟨rfl, rfl⟩
theorem barr2carrL (rd ra : SlotIx) (n : Int) : Statement (.barr2carrL rd ra n) :=
  of_row (opRows[8]'(by decide)) (List.getElem_mem _) rfl rfl
theorem barr2carrB (rd ra : SlotIx) (n : Int) : Statement (.barr2carrB rd ra n) :=
  of_row (opRows[9]'(by decide)) (List.getElem_mem _) rfl rfl
theorem carr2barrL (rd ra : SlotIx) : Statement (.carr2barrL rd ra) :=
  of_row (opRows[10]'(by decide)) (List.getElem_mem _) rfl ⟨rfl, rfl⟩
theorem carr2barrB (rd ra : SlotIx) : Statement (.carr2barrB rd ra) :=
  of_row (opRows[11]'(by decide)) (List.getElem_mem _) rfl ⟨rfl, rfl⟩
theorem isConsistentCarr (ra : SlotIx) : Statement (.isConsistentCarr ra) :=
  of_row (opRows[12]'(by decide)) (List.getElem_mem _) rfl ⟨rfl, rfl, rfl⟩
theorem dwarrAnd (rd ra rb : SlotIx) : Statement (.dwarrAnd rd ra rb) :=
  of_row (opRows[13]'(by decide)) (List.getElem_mem _) rfl rfl
theorem dwarrOr (rd ra rb : SlotIx) : Statement (.dwarrOr rd ra rb) :=
  of_row (opRows[14]'(by decide)) (List.getElem_mem _) rfl rfl
theorem dwarrXor (rd ra rb : SlotIx) : Statement (.dwarrXor rd ra rb) :=
  of_row (opRows[15]'(by decide)) (List.getElem_mem _) rfl rfl
theorem dwarrNot (rd ra : SlotIx) : Statement (.dwarrNot rd ra) :=
  of_row (opRows[16]'(by decide)) (List.getElem_mem _) rfl ⟨rfl, rfl⟩
theorem dwarrLShift (rd ra : SlotIx) (n : Int) : Statement (.dwarrLShift rd ra n) :=
  of_row (opRows[17]'(by decide)) (List.getElem_mem _) rfl rfl
theorem dwarrRShiftZ (rd ra : SlotIx) (n : Int) : Statement (.dwarrRShiftZ rd ra n) :=
  of_row (opRows[18]'(by decide)) (List.getElem_mem _) rfl rfl
theorem dwarrRShiftS (rd ra : SlotIx) (n : Int) : Statement (.dwarrRShiftS rd ra n) :=
  of_row (opRows[19]'(by decide)) (List.getElem_mem _) rfl rfl
theorem dwarrLRotate (rd ra : SlotIx) (n : Int) : Statement (.dwarrLRotate rd ra n) :=
  of_row (opRows[20]'(by decide)) (List.getElem_mem _) rfl rfl
theorem dwarrRRotate (rd ra : SlotIx) (n : Int) : Statement (.dwarrRRotate rd ra n) :=
  of_row (opRows[21]'(by decide)) (List.getElem_mem _) rfl rfl

end Sys2Proof.Laws.EncodesToRow
end

