-- ==== Sys2Proof/Laws/Signed.lean ====
section
/-! SUPPORT. The two's complement value of a superword (00_scope.md R7): its range, what it determines, and
what the sign-extending right shift does to it (44_shift_rotate.md R128). -/

namespace Sys2Proof.Machine

theorem sval_cons (x : Limb) (rest : Superword) : sval (x :: rest) = if x.getLsbD 31 then (val (x :: rest) : Int) - 2 ^ width (x :: rest) else val (x :: rest) := by
  simp [sval, BitVec.msb_eq_getLsbD_last]

theorem sval_emod (a : Superword) : sval a % 2 ^ width a = val a := by
  cases a with
  | nil => rfl
  | cons x r =>
    have := val_lt (x :: r)
    rw [sval_cons]; split
    · rw [Int.sub_emod_right]; exact Int.emod_eq_of_lt (by omega) (by exact_mod_cast this)
    · exact Int.emod_eq_of_lt (by omega) (by exact_mod_cast this)

theorem sval_bounds (a : Superword) (h : a ≠ []) : -(2:Int) ^ (width a - 1) ≤ sval a ∧ sval a < 2 ^ (width a - 1) := by
  cases a with
  | nil => exact absurd rfl h
  | cons x r =>
    have h1 := val_lt (x :: r)
    have h2 := toNat_bit31_head x r
    have hw : 2 ^ width (x :: r) = 2 * 2 ^ (width (x :: r) - 1) := by
      rw [← Nat.pow_succ']; congr 1
    have hp : 0 < 2 ^ (width (x :: r) - 1) := Nat.two_pow_pos _
    rw [sval_cons]
    split <;> rename_i hb
    · rw [hb] at h2
      have : 2 ^ (width (x :: r) - 1) ≤ val (x :: r) := by
        by_contra hc; rw [Nat.div_eq_of_lt (by omega)] at h2; simp at h2
      zify at *; omega
    · have hb' : (x.getLsbD 31) = false := by simpa using hb
      rw [hb'] at h2
      have : val (x :: r) < 2 ^ (width (x :: r) - 1) := by
        have := (Nat.div_eq_zero_iff).1 h2.symm; simp at this; simpa using this
      zify at *; omega

theorem sval_rshs1 (s : Superword) : sval (rshs1 s) = sval s / 2 := by
  cases s with
  | nil => rfl
  | cons x r =>
    have hv := val_rshs1_cons x r
    have hlen : width (rshs1 (x :: r)) = width (x :: r) := by simp [width]
    have hsb : sval (rshs1 (x::r)) = if x.getLsbD 31 then (val (rshs1 (x :: r)) : Int) - 2 ^ width (rshs1 (x :: r)) else val (rshs1 (x :: r)) := by
      have e : rshs1 (x :: r) = (x >>> 1 ||| bitLimb (x.getLsbD 31) <<< 31) :: rightScan (x.getLsbD 0) r := rfl
      rw [e, sval_cons]
      congr 1
      rw [BitVec.getLsbD_or, getLsbD_bitLimb_shift31]; simp
    rw [hsb, sval_cons, hv, hlen]
    have hw : 2 ^ width (x :: r) = 2 * 2 ^ (width (x :: r) - 1) := by
      rw [← Nat.pow_succ']; congr 1
    zify at hw
    split <;> rename_i hb
    · simp only [hb, Bool.toNat_true, if_true] at *; push_cast; omega
    · simp only [hb, Bool.not_eq_true, Bool.toNat_false] at *; simp_all

theorem sval_repeat_rshs1 (n : Nat) (s : Superword) : sval (repeatStep rshs1 n s) = sval s / 2 ^ n := by
  induction n with
  | zero => simp
  | succ n ih =>
    rw [repeatStep_succ, sval_rshs1, ih, Int.ediv_ediv_of_nonneg (by positivity), pow_succ]


theorem eq_of_sval_eq {a b : Superword} (hl : a.length = b.length) (h : sval a = sval b) : a = b := by
  apply eq_of_val_eq hl
  have h1 := sval_emod a; have h2 := sval_emod b
  have : width a = width b := by simp [width, hl]
  rw [h, this, h2] at h1; exact_mod_cast h1.symm

end Sys2Proof.Machine
end

