-- ==== Sys2Proof/Tests/Slice0.lean ====
section
/-! SUPPORT. The model's own tests: ill-formed terms the well-formedness check refuses; decoding, on words
written out from the spec's encoding; at most two one-command tests per instruction, their results taken from
spec/95_test_vectors.md (the vector is named at each) or from the rule named; the host port; and for every
statement of Certificates/Slice0/Obligations.lean that has hypotheses, a state and operands that meet them. -/

namespace Sys2Proof.Tests

open Sys2Proof Sys2Proof.Machine

/-! ### Helpers -/

/-- The reset state with two slots written. -/
def at2 (v0 v1 : Value) : State := (State.reset.setSlot 0 v0).setSlot 1 v1

/-- The reset state with slot 0 written. -/
def at1 (v0 : Value) : State := State.reset.setSlot 0 v0

/-- The reset state with a slot written and transactions pending. -/
def issuing (v0 : Value) (xs : List Transaction) : State := { at1 v0 with pending := xs }

/-- What `HCMD` of a word leaves in slot 15, and the `STATUS` it replies. -/
def after (w : BitVec 64) (s : State) : Option (Value × BitVec 32) :=
  match hcmd w s with
  | .next t => some (t.slot 15, t.statusWord)
  | .fault _ => none
  | .refused _ => none

/-- The command a word decodes to. -/
def read (w : BitVec 64) : Option Instr := (decode w).toOption

/-! ### WellFormed: each immediate check refuses a term out of range (R52) -/

theorem test_illFormed_barr2carrL : (Instr.barr2carrL 1 0 2147483648).wellFormed = false ∧
    (Instr.barr2carrL 1 0 (-2147483649)).wellFormed = false ∧ (Instr.barr2carrL 1 0 2147483647).wellFormed = true ∧
    (Instr.barr2carrL 1 0 (-2147483648)).wellFormed = true := by decide
theorem test_illFormed_barr2carrB : (Instr.barr2carrB 1 0 2147483648).wellFormed = false ∧
    (Instr.barr2carrB 1 0 (-2147483649)).wellFormed = false ∧ (Instr.barr2carrB 1 0 2147483647).wellFormed = true ∧
    (Instr.barr2carrB 1 0 (-2147483648)).wellFormed = true := by decide
theorem test_illFormed_dwarrLShift : (Instr.dwarrLShift 1 0 2147483648).wellFormed = false ∧
    (Instr.dwarrLShift 1 0 (-2147483649)).wellFormed = false ∧ (Instr.dwarrLShift 1 0 2147483647).wellFormed = true ∧
    (Instr.dwarrLShift 1 0 (-2147483648)).wellFormed = true := by decide
theorem test_illFormed_dwarrRShiftZ : (Instr.dwarrRShiftZ 1 0 2147483648).wellFormed = false ∧
    (Instr.dwarrRShiftZ 1 0 (-2147483649)).wellFormed = false ∧ (Instr.dwarrRShiftZ 1 0 2147483647).wellFormed = true ∧
    (Instr.dwarrRShiftZ 1 0 (-2147483648)).wellFormed = true := by decide
theorem test_illFormed_dwarrRShiftS : (Instr.dwarrRShiftS 1 0 2147483648).wellFormed = false ∧
    (Instr.dwarrRShiftS 1 0 (-2147483649)).wellFormed = false ∧ (Instr.dwarrRShiftS 1 0 2147483647).wellFormed = true ∧
    (Instr.dwarrRShiftS 1 0 (-2147483648)).wellFormed = true := by decide
theorem test_illFormed_dwarrLRotate : (Instr.dwarrLRotate 1 0 2147483648).wellFormed = false ∧
    (Instr.dwarrLRotate 1 0 (-2147483649)).wellFormed = false ∧ (Instr.dwarrLRotate 1 0 2147483647).wellFormed = true ∧
    (Instr.dwarrLRotate 1 0 (-2147483648)).wellFormed = true := by decide
theorem test_illFormed_dwarrRRotate : (Instr.dwarrRRotate 1 0 2147483648).wellFormed = false ∧
    (Instr.dwarrRRotate 1 0 (-2147483649)).wellFormed = false ∧ (Instr.dwarrRRotate 1 0 2147483647).wellFormed = true ∧
    (Instr.dwarrRRotate 1 0 (-2147483648)).wellFormed = true := by decide

/-! ### Decoding

One word of each family bit by bit, the fields being imm, opcode, rd, ra, rb, zero (R50); then a word of every
command, in hexadecimal as its rule or vector writes it. -/

theorem test_decode_bits_evc : read 0b00000000000000000000000000000000_00010111_0101_0010_0000_000000000000#64 = some (.dwarr2barrB 5 2) := by decide
theorem test_decode_bits_cb : read 0b11111111111111111111111111111100_00100001_1111_0000_0000_000000000000#64 =
    some (.barr2carrB 15 0 (-4)) := by decide
theorem test_decode_bits_validator : read 0b00000000000000000000000000000000_00100100_0000_0010_0000_000000000000#64 = some (.isConsistentCarr 2) := by decide
theorem test_decode_bits_blu : read 0b00000000000000000000000000000000_00110010_0011_0001_0010_000000000000#64 = some (.dwarrXor 3 1 2) := by decide
theorem test_decode_bits_sre : read 0b10000000000000000000000000000000_01000011_1111_0000_0000_000000000000#64 =
    some (.dwarrLRotate 15 0 (-2147483648)) := by decide

theorem test_decode_barr2warrL : read 0x0000000010F00000#64 = some (.barr2warrL 15 0) := by decide
theorem test_decode_barr2warrB : read 0x0000000011420000#64 = some (.barr2warrB 4 2) := by decide
theorem test_decode_warr2barrL : read 0x0000000012F00000#64 = some (.warr2barrL 15 0) := by decide
theorem test_decode_warr2barrB : read 0x0000000013F00000#64 = some (.warr2barrB 15 0) := by decide
theorem test_decode_barr2dwarrL : read 0x0000000014500000#64 = some (.barr2dwarrL 5 0) := by decide
theorem test_decode_barr2dwarrB : read 0x0000000015420000#64 = some (.barr2dwarrB 4 2) := by decide
theorem test_decode_dwarr2barrL : read 0x0000000016F00000#64 = some (.dwarr2barrL 15 0) := by decide
theorem test_decode_dwarr2barrB : read 0x0000000017520000#64 = some (.dwarr2barrB 5 2) := by decide
theorem test_decode_barr2carrL : read 0x0000000820200000#64 = some (.barr2carrL 2 0 8) := by decide
theorem test_decode_barr2carrB : read 0x0000000821100000#64 = some (.barr2carrB 1 0 8) := by decide
theorem test_decode_carr2barrL : read 0x0000000022320000#64 = some (.carr2barrL 3 2) := by decide
theorem test_decode_carr2barrB : read 0x0000000023420000#64 = some (.carr2barrB 4 2) := by decide
theorem test_decode_isConsistentCarr : read 0x0000000024010000#64 = some (.isConsistentCarr 1) := by decide
theorem test_decode_dwarrAnd : read 0x0000000030541000#64 = some (.dwarrAnd 5 4 1) := by decide
theorem test_decode_dwarrOr : read 0x0000000031552000#64 = some (.dwarrOr 5 5 2) := by decide
theorem test_decode_dwarrXor : read 0x0000000032312000#64 = some (.dwarrXor 3 1 2) := by decide
theorem test_decode_dwarrNot : read 0x0000000033430000#64 = some (.dwarrNot 4 3) := by decide
theorem test_decode_dwarrLShift : read 0xFFFFFFFF40300000#64 = some (.dwarrLShift 3 0 (-1)) := by decide
theorem test_decode_dwarrRShiftZ : read 0x000000E341830000#64 = some (.dwarrRShiftZ 8 3 227) := by decide
theorem test_decode_dwarrRShiftS : read 0x0000000342100000#64 = some (.dwarrRShiftS 1 0 3) := by decide
theorem test_decode_dwarrLRotate : read 0xFFFFFFFC43220000#64 = some (.dwarrLRotate 2 2 (-4)) := by decide
theorem test_decode_dwarrRRotate : read 0x0000001244310000#64 = some (.dwarrRRotate 3 1 18) := by decide

/-- T-DEC-1 to T-DEC-6. -/
theorem test_decode_refuses :
    decode 0x0000000000000000#64 = .error .unknownOpcode ∧ decode 0x0000000145100000#64 = .error .unknownOpcode ∧
    decode 0x0000000110100000#64 = .error .nonZeroField ∧ decode 0x0000000030201001#64 = .error .nonZeroField ∧
    decode 0x0000000024120000#64 = .error .nonZeroField ∧ decode 0x0000000040101000#64 = .error .nonZeroField := by
  refine ⟨rfl, rfl, rfl, rfl, rfl, rfl⟩

/-- A word of the table, and one given with more bits than a command has. -/
theorem test_decodeTableWord : decodeTableWord 64 0x0000000340100000 = some (.dwarrLShift 1 0 3) ∧
    decodeTableWord 72 0x0000000340100000 = none ∧ decodeTableWord 64 0 = none := by decide

/-! ### One command on a small state -/

/-- T-EVC-1. -/
theorem test_barr2warrL :
    after 0x0000000010F00000#64 (at1 (.ba [0x01, 0x02, 0x03, 0x04])) =
      some (.wa [0x0201, 0x0403], 0) := by decide
/-- T-EVC-3. -/
theorem test_barr2warrL_odd :
    after 0x0000000010F00000#64 (at1 (.ba [0x01, 0x02, 0x03])) =
      some (.u, 0x12) := by decide
/-- T-EVC-2. -/
theorem test_barr2warrB :
    after 0x0000000011F00000#64 (at1 (.ba [0x01, 0x02, 0x03, 0x04])) =
      some (.wa [0x0102, 0x0304], 0) := by decide
/-- T-EVC-5. -/
theorem test_warr2barrL :
    after 0x0000000012F00000#64 (at1 (.wa [0x0201, 0xFFFE])) =
      some (.ba [0x01, 0x02, 0xFE, 0xFF], 0) := by decide
/-- T-EVC-15. -/
theorem test_warr2barrL_unset : after 0x0000000012F00000#64 State.reset = some (.u, 0x11) := by decide
/-- T-EVC-6. -/
theorem test_warr2barrB :
    after 0x0000000013F00000#64 (at1 (.wa [0x0201, 0xFFFE])) =
      some (.ba [0x02, 0x01, 0xFF, 0xFE], 0) := by decide
/-- T-EVC-7. -/
theorem test_barr2dwarrL :
    after 0x0000000014F00000#64 (at1 (.ba [1, 2, 3, 4, 5, 6, 7, 8])) =
      some (.da [0x04030201, 0x08070605], 0) := by decide
/-- T-EVC-8. -/
theorem test_barr2dwarrB :
    after 0x0000000015F00000#64 (at1 (.ba [1, 2, 3, 4, 5, 6, 7, 8])) =
      some (.da [0x01020304, 0x05060708], 0) := by decide
/-- T-EVC-9. -/
theorem test_barr2dwarrB_six :
    after 0x0000000015F00000#64 (at1 (.ba [1, 2, 3, 4, 5, 6])) =
      some (.u, 0x12) := by decide
/-- T-EVC-11. -/
theorem test_dwarr2barrL :
    after 0x0000000016F00000#64 (at1 (.da [0x04030201, 0x08070605])) =
      some (.ba [1, 2, 3, 4, 5, 6, 7, 8], 0) := by decide
/-- T-EVC-12. -/
theorem test_dwarr2barrB :
    after 0x0000000017F00000#64 (at1 (.da [0x04030201, 0x08070605])) =
      some (.ba [4, 3, 2, 1, 8, 7, 6, 5], 0) := by decide
/-- T-CB-2. -/
theorem test_barr2carrL :
    after 0x0000000C20F00000#64 (at1 (.ba ((List.range 24).map fun i => BitVec.ofNat 8 (0x10 + i)))) =
      some (.ca [[0x1B1A1918, 0x17161514, 0x13121110], [0x27262524, 0x23222120, 0x1F1E1D1C]], 0) := by decide
/-- T-CB-5. -/
theorem test_barr2carrL_zero : after 0x0000000020F00000#64 (at1 (.ba [1, 2, 3, 4])) = some (.u, 0x23) := by decide
/-- T-CB-1. -/
theorem test_barr2carrB :
    after 0x0000000C21F00000#64 (at1 (.ba ((List.range 24).map fun i => BitVec.ofNat 8 (0x10 + i)))) =
      some (.ca [[0x10111213, 0x14151617, 0x18191A1B], [0x1C1D1E1F, 0x20212223, 0x24252627]], 0) := by decide
/-- T-CB-6. -/
theorem test_barr2carrB_six :
    after 0x0000000621F00000#64 (at1 (.ba [1, 2, 3, 4, 5, 6])) =
      some (.u, 0x23) := by decide
/-- T-CB-10, ragged. -/
theorem test_carr2barrL :
    after 0x0000000022F00000#64 (at1 (.ca [[0x01020304, 0x05060708], [0x0A0B0C0D]])) =
      some (.ba [8, 7, 6, 5, 4, 3, 2, 1, 0x0D, 0x0C, 0x0B, 0x0A], 0) := by decide
/-- T-CB-11, ragged. -/
theorem test_carr2barrB :
    after 0x0000000023F00000#64 (at1 (.ca [[0x01020304, 0x05060708], [0x0A0B0C0D]])) =
      some (.ba [1, 2, 3, 4, 5, 6, 7, 8, 0x0A, 0x0B, 0x0C, 0x0D], 0) := by decide
/-- T-CB-12. -/
theorem test_isConsistentCarr :
    after 0x0000000024000000#64 (at1 (.ca [[1, 2], [3, 4]])) =
      some (.u, 0x100) := by decide
/-- T-CB-15. -/
theorem test_isConsistentCarr_ragged :
    after 0x0000000024000000#64 ((at1 (.ca [[], [0]])).setT true) =
      some (.u, 0) := by decide
/-- T-BLU-1. -/
theorem test_dwarrAnd :
    after 0x0000000030F01000#64 (at2 (.da [0xFFFF0000, 0x12345678]) (.da [0x0F0F0F0F, 0xFFFFFFFF])) =
      some (.da [0x0F0F0000, 0x12345678], 0) := by decide
/-- T-BLU-7. -/
theorem test_dwarrAnd_type :
    after 0x0000000030F01000#64 (at2 (.ba [1, 2, 3, 4]) (.da [0x0F0F0F0F])) =
      some (.u, 0x31) := by decide
/-- T-BLU-2. -/
theorem test_dwarrOr :
    after 0x0000000031F01000#64 (at2 (.da [0xFFFF0000, 0x12345678]) (.da [0x0F0F0F0F, 0xFFFFFFFF])) =
      some (.da [0xFFFF0F0F, 0xFFFFFFFF], 0) := by decide
/-- T-BLU-3. -/
theorem test_dwarrXor :
    after 0x0000000032F01000#64 (at2 (.da [0xFFFF0000, 0x12345678]) (.da [0x0F0F0F0F, 0xFFFFFFFF])) =
      some (.da [0xF0F00F0F, 0xEDCBA987], 0) := by decide
/-- T-BLU-6. -/
theorem test_dwarrXor_lengths :
    after 0x0000000032F01000#64 (at2 (.da [0x12345678, 0x9ABCDEF0]) (.da [0xFFFFFFFF])) =
      some (.u, 0x35) := by decide
/-- T-BLU-4. -/
theorem test_dwarrNot :
    after 0x0000000033F00000#64 (at1 (.da [0x00000000, 0x12345678])) =
      some (.da [0xFFFFFFFF, 0xEDCBA987], 0) := by decide
/-- T-SRE-6. -/
theorem test_dwarrLShift :
    after 0x0000003B40F00000#64 (at1 (.da [0, 0, 0, 0, 0, 0, 0, 1])) =
      some (.da [0, 0, 0, 0, 0, 0, 0x08000000, 0], 0) := by decide
/-- T-SRE-53. -/
theorem test_dwarrLShift_negative : after 0xFFFFFFFF40F00000#64 (at1 (.da [1])) = some (.u, 0x44) := by decide
/-- T-SRE-27. -/
theorem test_dwarrRShiftZ :
    after 0x0000002441F00000#64 (at1 (.da [0x9ABCDEF0, 0x12345678])) =
      some (.da [0x00000000, 0x09ABCDEF], 0) := by decide
/-- T-SRE-54. -/
theorem test_dwarrRShiftZ_type : after 0x0000000141F00000#64 (at1 (.ba [1])) = some (.u, 0x41) := by decide
/-- T-SRE-19. -/
theorem test_dwarrRShiftS :
    after 0x0000002142F00000#64 (at1 (.da [0x80000000, 0, 0, 0, 0, 0, 0, 0])) =
      some (.da [0xFFFFFFFF, 0xC0000000, 0, 0, 0, 0, 0, 0], 0) := by decide
/-- T-SRE-48. -/
theorem test_dwarrRShiftS_positive :
    after 0x0000002142F00000#64 (at1 (.da [0x7FFFFFFF, 0xFFFFFFFF, 0xFFFFFFFF])) =
      some (.da [0x00000000, 0x3FFFFFFF, 0xFFFFFFFF], 0) := by decide
/-- T-SRE-39. -/
theorem test_dwarrLRotate :
    after 0xFFFFFFDC43F00000#64 (at1 (.da [0x12345678, 0x9ABCDEF0])) =
      some (.da [0x89ABCDEF, 0x01234567], 0) := by decide
/-- T-SRE-40. -/
theorem test_dwarrLRotate_most_negative :
    after 0x8000000043F00000#64 (at1 (.da [0x12345678, 0x9ABCDEF0])) =
      some (.da [0x12345678, 0x9ABCDEF0], 0) := by decide
/-- T-SRE-35. -/
theorem test_dwarrRRotate :
    after 0x0000002444F00000#64 (at1 (.da [0x12345678, 0x9ABCDEF0])) =
      some (.da [0x89ABCDEF, 0x01234567], 0) := by decide
/-- T-SRE-41. -/
theorem test_dwarrRRotate_largest :
    after 0x7FFFFFFF44F00000#64 (at1 (.da [0x12345678, 0x9ABCDEF0])) =
      some (.da [0x2468ACF1, 0x3579BDE0], 0) := by decide
/-- T-SRE-55. -/
theorem test_one_bit_steps : lsh1 [0x80000001, 0x00000003] = [0x00000002, 0x00000006] ∧
    rshz1 [0x80000001, 0x00000003] = [0x40000000, 0x80000001] ∧
    rshs1 [0x80000001, 0x00000003] = [0xC0000000, 0x80000001] ∧
    lrot1 [0x80000001, 0x00000003] = [0x00000002, 0x00000007] ∧
    rrot1 [0x80000001, 0x00000003] = [0xC0000000, 0x80000001] := by decide

/-! ### The host port -/

/-- T-DEC-1: an illegal command keeps `T` and the slots. -/
theorem test_illegal_command :
    after 0#64 ((State.reset.setSlot 15 (.da [7])).setT true) = some (.da [7], 0x106) := by decide

/-- R17, R38: a composite that is small enough in bytes but has too many superwords does not fit. -/
theorem test_hwrite_refuses : hwrite (some 7) 3 (.ca [[], []]) State.reset = State.reset.reply .refused ∧
    hwrite (some 7) 3 (.ca [[0]]) State.reset = (State.reset.setSlot 3 (.ca [[0]])).reply .accepted ∧
    hwrite (some 3) 3 (.da [0]) State.reset = State.reset.reply .refused ∧
    hwrite none 3 (.da [0]) State.reset = (State.reset.setSlot 3 (.da [0])).reply .accepted := by decide

/-- R40: `HSTATUS` replies the nine bits that have a field. -/
theorem test_hstatus : hstatus { State.reset with status := 0xFFFFFF12 } =
    { State.reset with status := 0xFFFFFF12, replies := [.status 0x112] } := by decide

/-- The first step after reset runs the word that `withFetchWord` hands over. -/
theorem test_withFetchWord : step (State.reset.withFetchWord 64 0x0000000024000000) =
    .next { State.reset with status := 0x21, replies := [.status 0x21] } := by rfl

/-! ### Witnesses: for each statement with hypotheses, a state and operands that meet them -/

theorem witness_DecodeOfEncodeIsTheInstruction : (Instr.barr2warrL 15 0).wellFormed = true ∧
    (Instr.dwarrLRotate 0 15 (-2147483648)).wellFormed = true ∧ (Instr.barr2carrB 1 2 2147483647).wellFormed = true := by
  decide

theorem witness_EncodeOfDecodeIsTheWord : decode 0xFFFFFFFC43220000#64 = .ok (.dwarrLRotate 2 2 (-4)) := rfl

theorem witness_WordIsTheCommandOfARowIffMaskMatches :
    (∀ r ∈ tableRows, 0x0000000024120000#64 &&& r.1 ≠ r.2) ∧ (∀ r ∈ tableRows, 0#64 &&& r.1 ≠ r.2) := by
  simp [tableRows]

theorem witness_StepRunsTheDecodedCommand :
    let s := issuing (.ba []) [.hcmd 0x10100000#64, .hstatus]
    s.pending = .hcmd 0x10100000#64 :: [.hstatus] ∧ decode 0x10100000#64 = .ok (.barr2warrL 1 0) ∧
      (Instr.barr2warrL 1 0).wellFormed = true ∧ ∃ t, exec (.barr2warrL 1 0) { s with pending := [.hstatus] } = .next t :=
  ⟨rfl, rfl, rfl, _, rfl⟩

theorem witness_IllegalWordRaisesIllegalCommand : (issuing .u [.hcmd 0x145100000#64]).pending = .hcmd 0x145100000#64 :: [] ∧
    (∀ r ∈ tableRows, 0x145100000#64 &&& r.1 ≠ r.2) ∧ ∃ r ∈ tableRows, 0x340100000#64 &&& r.1 = r.2 := by
  simp [tableRows, issuing]

theorem witness_ErrorIsDeliveredInStatusAlone :
    (issuing .u [.hcmd 0x33100000#64, .hread 1]).pending = .hcmd 0x33100000#64 :: [.hread 1] := rfl

theorem witness_HwriteWritesWhatFitsAndRefusesTheRest :
    (issuing .u [.hwrite 3 (.da [7])]).pending = .hwrite 3 (.da [7]) :: [] ∧
    Value.fits (some 4) (HostValue.da [7]).toValue = true ∧ Value.fits (some 3) (HostValue.da [7]).toValue = false := by
  decide

theorem witness_HreadRepliesTheSlotAndChangesNothing :
    ((issuing .u [.hread 3]).pending = .hread 3 :: []) ∧
    ((issuing .u [.hwrite 3 (.ba []), .hread 3]).pending = .hwrite 3 (.ba []) :: .hread 3 :: [] ∧
      (HostValue.ba []).toValue.fits Config.slotBytes = true) ∧
    (let s := issuing (.ba [1, 2]) [.hcmd 0x10100000#64, .hread 1]
     s.pending = .hcmd 0x10100000#64 :: .hread 1 :: [] ∧ decode 0x10100000#64 = .ok (.barr2warrL 1 0) ∧
      CompletesWriting (.barr2warrL 1 0) { s with pending := .hread 1 :: [] } 1 (.wa [0x0201])) ∧
    (issuing .u [.hreset, .hread 0]).pending = .hreset :: .hread 0 :: [] := by
  refine ⟨rfl, ⟨rfl, ?_⟩, ⟨rfl, rfl, ?_⟩, rfl⟩
  · cases Config.slotBytes <;> simp [HostValue.toValue, Value.fits, Value.size]
  · refine ⟨_, rfl, rfl, ?_, rfl, rfl, rfl, rfl, rfl, rfl⟩
    decide

theorem witness_HstatusRepliesStatusAndChangesNothing : (issuing .u [.hstatus]).pending = .hstatus :: [] := rfl

theorem witness_HresetSetsEveryResetValue : (issuing (.da [1]) [.hreset, .hstatus]).pending = .hreset :: [.hstatus] := rfl

theorem witness_IdleEngineChangesNothing : (at1 (.da [1])).pending = [] := rfl

theorem witness_EveryTransactionCompletesAndIsAnsweredOnce : (issuing .u [.hreset, .hread 2]).pending = .hreset :: [.hread 2] ∧
    (issuing .u [.hread 2]).pending = .hread 2 :: [] ∧ Transaction.hread 2 ≠ .hreset := by decide

theorem witness_RunAppliesTransactionsInIssueOrder :
    (issuing .u [.hwrite 0 (.ba [1]), .hcmd 0#64, .hread 0]).pending = [.hwrite 0 (.ba [1]), .hcmd 0#64] ++ [.hread 0] := rfl

theorem witness_OnlyCommandsHwriteAndResetWriteState :
    let s := issuing (.da [1]) [.hcmd 0x33000000#64]
    s.pending = .hcmd 0x33000000#64 :: [] ∧ ∃ t, step s = .next t ∧ t.slot 0 ≠ s.slot 0 :=
  ⟨rfl, _, rfl, by decide⟩

theorem witness_OnlyCommandsHwriteAndResetWriteState_status :
    let s := issuing .u [.hcmd 0#64]
    s.pending = .hcmd 0#64 :: [] ∧ ∃ t, step s = .next t ∧ t.status ≠ s.status :=
  ⟨rfl, _, rfl, by decide⟩

theorem witness_ByteArrayToWordArray : ((at1 (.u)).slot 0).tag ≠ .BA ∧
    ((at1 (.ba [1])).slot 0 = .ba [1] ∧ ([1] : List Byte).length % 2 ≠ 0) ∧
    ((at1 (.ba [])).slot 0 = .ba [] ∧ ([] : List Byte).length % 2 = 0) ∧
    ((at1 (.ba [1, 2, 3, 4])).slot 0 = .ba [1, 2, 3, 4] ∧ ([1, 2, 3, 4] : List Byte).length % 2 = 0 ∧
      ([1, 2, 3, 4] : List Byte)[2 * 0 + 0]? = some 1 ∧ ([1, 2, 3, 4] : List Byte)[2 * 0 + 1]? = some 2) := by
  decide

theorem witness_ByteArrayToLimbArray : ((at1 (.da [1])).slot 0).tag ≠ .BA ∧
    ((at1 (.ba [1, 2])).slot 0 = .ba [1, 2] ∧ ([1, 2] : List Byte).length % 4 ≠ 0) ∧
    ((at1 (.ba [])).slot 0 = .ba [] ∧ ([] : List Byte).length % 4 = 0) ∧
    ((at1 (.ba [1, 2, 3, 4])).slot 0 = .ba [1, 2, 3, 4] ∧ ([1, 2, 3, 4] : List Byte).length % 4 = 0 ∧
      ([1, 2, 3, 4] : List Byte)[4 * 0 + 0]? = some 1 ∧ ([1, 2, 3, 4] : List Byte)[4 * 0 + 1]? = some 2 ∧ ([1, 2, 3, 4] : List Byte)[4 * 0 + 2]? = some 3 ∧ ([1, 2, 3, 4] : List Byte)[4 * 0 + 3]? = some 4) := by
  decide

theorem witness_WordArrayToByteArray : ((at1 (.ba [])).slot 0).tag ≠ .WA ∧
    (at1 (.wa [0x0201])).slot 0 = .wa [0x0201] ∧ ([0x0201] : List Word)[0]? = some 0x0201 := by decide

theorem witness_LimbArrayToByteArray : ((at1 (.wa [])).slot 0).tag ≠ .DA ∧
    (at1 (.da [0x04030201])).slot 0 = .da [0x04030201] ∧ ([0x04030201] : List Limb)[0]? = some 0x04030201 ∧ 3 < 4 := by
  decide

theorem witness_EndianConversionsAreMutuallyInverse : ([1, 2] : List Byte).length % 2 = 0 ∧
    ([1, 2, 3, 4] : List Byte).length % 4 = 0 ∧ 3 < 4 ∧ 4 * 0 + 3 < ([1, 2, 3, 4] : List Byte).length := by decide

theorem witness_BuilderMakesOneSuperwordAChunk : ((at1 (.da [])).slot 0).tag ≠ .BA ∧
    (at1 (.ba [1, 2, 3, 4])).slot 0 = .ba [1, 2, 3, 4] ∧
    ((0 : Int) ≤ 0 ∨ (0 : Int) % 4 ≠ 0) ∧ ((6 : Int) ≤ 0 ∨ (6 : Int) % 4 ≠ 0) ∧
    ((0 : Int) < 8 ∧ (8 : Int) % 4 = 0 ∧ ((([1, 2, 3, 4] : List Byte).length : Nat) : Int) % 8 ≠ 0) ∧
    ((0 : Int) < 4 ∧ (4 : Int) % 4 = 0 ∧ ((([1, 2, 3, 4] : List Byte).length : Nat) : Int) % 4 = 0) ∧
    0 < ([1, 2, 3, 4] : List Byte).length / (4 : Int).toNat ∧ 0 < (4 : Int).toNat / 4 ∧
    ([1, 2, 3, 4] : List Byte)[0 * (4 : Int).toNat + 4 * 0 + 3]? = some 4 := by decide

theorem witness_BuiltSuperwordIsTheIntegerOfItsChunk : (at1 (.ba [1, 2, 3, 4])).slot 0 = .ba [1, 2, 3, 4] ∧
    (0 : Int) < 4 ∧ (4 : Int) % 4 = 0 ∧ ((([1, 2, 3, 4] : List Byte).length : Nat) : Int) % 4 = 0 := by decide

theorem witness_CompositeToByteArray : ((at1 (.da [])).slot 0).tag ≠ .CA ∧
    (at1 (.ca [[1, 2], [3]])).slot 0 = .ca [[1, 2], [3]] ∧ ([[1, 2], [3]] : Composite)[1]? = some [3] ∧
    ([3] : Superword)[0]? = some 3 ∧ 3 < 4 := by decide

theorem witness_ValidatorAnswersInStatusT : ((at1 (.da [])).slot 0).tag ≠ .CA ∧
    ((at1 (.ca [])).slot 0 = .ca [] ∧ ∀ x ∈ ([] : Composite), ∀ y ∈ ([] : Composite), x.length = y.length) ∧
    ((at1 (.ca [[], [0]])).slot 0 = .ca [[], [0]] ∧
      ∃ x ∈ ([[], [0]] : Composite), ∃ y ∈ ([[], [0]] : Composite), x.length ≠ y.length) := by decide

theorem witness_CompositeRoundTrip : ((at1 (.ba [1, 2, 3, 4])).slot 0 = .ba [1, 2, 3, 4] ∧
      (0 : Int) < 4 ∧ (4 : Int) % 4 = 0 ∧ ((([1, 2, 3, 4] : List Byte).length : Nat) : Int) % 4 = 0) ∧
    ((at1 (.ca [[1], [2]])).slot 0 = .ca [[1], [2]] ∧ 1 ≤ 1 ∧ ∀ x ∈ ([[1], [2]] : Composite), x.length = 1) := by decide

theorem witness_BuiltCompositeIsConsistent :
    ∃ t, exec (.barr2carrL 1 0 4) (at1 (.ba [1, 2, 3, 4])) = .next t ∧ t.kind = 0 := ⟨_, rfl, by decide⟩

theorem witness_EndiannessContractExample :
    (at1 (.ba [0x01, 0x02, 0x03, 0x04, 0x05, 0x06, 0x07, 0x08])).slot 0 =
      .ba [0x01, 0x02, 0x03, 0x04, 0x05, 0x06, 0x07, 0x08] := by decide

theorem witness_BinaryLogicIsLimbWise : (((at2 (.da [1]) (.ba [])).slot 0).tag ≠ .DA ∨ ((at2 (.da [1]) (.ba [])).slot 1).tag ≠ .DA) ∧
    ((at2 (.da [1]) (.da [])).slot 0 = .da [1] ∧ (at2 (.da [1]) (.da [])).slot 1 = .da [] ∧
      ([1] : Superword).length ≠ ([] : Superword).length) ∧
    ((at2 (.da [1]) (.da [2])).slot 0 = .da [1] ∧ (at2 (.da [1]) (.da [2])).slot 1 = .da [2] ∧
      ([1] : Superword).length = ([2] : Superword).length ∧ ([1] : Superword)[0]? = some 1 ∧ ([2] : Superword)[0]? = some 2) := by
  decide

theorem witness_NotIsLimbWiseComplement : ((at1 .u).slot 0).tag ≠ .DA ∧ (at1 (.da [5])).slot 0 = .da [5] ∧
    ([5] : Superword)[0]? = some 5 := by decide

theorem witness_LogicIsBitwiseOnIntegers : ([1, 2] : Superword).length = ([3, 4] : Superword).length := rfl

theorem witness_SourcesAreReadBeforeTheDestinationIsWritten :
    destination (.dwarrNot 1 0) = some (1, .DA) ∧
    (∃ t, exec (.dwarrNot 1 0) (at1 (.da [5])) = .next t ∧ t.kind = 0) ∧
    (∃ u, exec (retarget 0 (.dwarrNot 1 0)) (at1 (.da [5])) = .next u) ∧ (at1 (.da [5])).slot 0 = .da [5] :=
  ⟨rfl, ⟨_, rfl, by decide⟩, ⟨_, rfl⟩, by decide⟩

theorem witness_OneBitShiftsCarryAcrossLimbs : 1 < ([1, 2] : Superword).length := by decide

theorem witness_OneBitRotatesReinsertTheBit : ([1] : Superword) ≠ [] := by decide

theorem witness_ShiftsRepeatTheOneBitStep : ((at1 .u).slot 0).tag ≠ .DA ∧ (at1 (.da [5])).slot 0 = .da [5] ∧
    (-1 : Int) < 0 ∧ (0 : Int) ≤ 0 := by decide

theorem witness_RotatesRepeatTheOneBitStep : ((at1 (.ca [])).slot 0).tag ≠ .DA ∧ (at1 (.da [])).slot 0 = .da [] ∧
    (0 : Int) ≤ 0 ∧ (-2147483648 : Int) < 0 := by decide

theorem witness_CountsAtOrBeyondTheWidth : (at1 (.da [0x80000000])).slot 0 = .da [0x80000000] ∧
    width [0x80000000] ≤ 32 ∧ width [0x80000000] - 1 ≤ 31 ∧ ([0x80000000] : Superword) ≠ [] := by decide

theorem witness_MostNegativeCount : (at1 (.da [1, 2, 3])).slot 0 = .da [1, 2, 3] := by decide

theorem witness_SmallSuperwords : (at1 (.da [5])).slot 0 = .da [5] ∧ (at1 (.da [])).slot 0 = .da [] := by decide

theorem witness_CarryChainExamplesAsCorrected :
    (at1 (.da [0, 0, 0, 0, 0, 0, 0, 1])).slot 0 = .da [0, 0, 0, 0, 0, 0, 0, 1] := by decide

theorem witness_CommandRaisesOnlyItsKinds :
    ∃ t, exec (.dwarrLShift 1 0 (-1)) (at1 (.da [5])) = .next t ∧ t.kind = 4 := ⟨_, rfl, by decide⟩

theorem witness_ErrorsArePrecise :
    ∃ t, exec (.dwarrXor 2 0 1) (at2 (.da [5]) (.da [])) = .next t ∧ t.kind ≠ 0 := ⟨_, rfl, by decide⟩

theorem witness_OnlyTheDestinationIsWrittenAndOnlyOnSuccess :
    ∃ t, exec (.dwarrNot 1 0) (at1 (.da [5])) = .next t ∧ t.slot 1 ≠ (at1 (.da [5])).slot 1 ∧
      destination (.dwarrNot 1 0) = some (1, .DA) ∧ t.kind = 0 := ⟨_, rfl, by decide, rfl, by decide⟩

theorem witness_OnlyTheValidatorWritesT :
    (∃ t, exec (.isConsistentCarr 0) (at1 (.ca [])) = .next t ∧ t.flagT ≠ (at1 (.ca [])).flagT) ∧
    (∃ t, step (issuing (.ca []) [.hcmd 0x24000000#64]) = .next t ∧
      t.flagT ≠ (issuing (.ca []) [.hcmd 0x24000000#64]).flagT) ∧
    ∃ t u, exec (.isConsistentCarr 0) (at1 (.ca [])) = .next t ∧
      exec (.isConsistentCarr 0) ((at1 (.ca [])).setT true) = .next u ∧ t.kind = 0 :=
  ⟨⟨_, rfl, by decide⟩, ⟨_, rfl, by decide⟩, _, _, rfl, rfl, by decide⟩

theorem witness_ResultDependsOnlyOnTheNamedSlots :
    (∀ j ∈ sources (.dwarrNot 1 0), (at2 (.da [5]) .u).slot j = (at2 (.da [5]) (.ba [1])).slot j) ∧
    ∃ t t', exec (.dwarrNot 1 0) (at2 (.da [5]) .u) = .next t ∧
      exec (.dwarrNot 1 0) (at2 (.da [5]) (.ba [1])) = .next t' ∧ t.kind = 0 :=
  ⟨by decide, _, _, rfl, rfl, by decide⟩

theorem witness_RepeatingACommandChangesNothingMore :
    ∃ t u, exec (.dwarrNot 1 0) (at1 (.da [5])) = .next t ∧
      (∀ j ∈ sources (.dwarrNot 1 0), t.slot j = (at1 (.da [5])).slot j) ∧ exec (.dwarrNot 1 0) t = .next u :=
  ⟨_, _, rfl, by decide, rfl⟩

theorem witness_StepKeepsStatusLegal :
    ((issuing .u [.hcmd 0x33100000#64]).kind, (issuing .u [.hcmd 0x33100000#64]).comp) ∈ legalOutcomes ∧
    (issuing .u [.hcmd 0x33100000#64]).statusRest = 0 ∧ ∃ t, step (issuing .u [.hcmd 0x33100000#64]) = .next t :=
  ⟨by decide, by decide, _, rfl⟩

theorem witness_StepKeepsSlotsWithinCapacity :
    let s := issuing .u [.hcmd 0x33100000#64]
    (SlotsFit (some 4) (at1 (.da [5])) ∧ ∃ t, stepWith (some 4) (at1 (.da [5])) = .next t) ∧
    SlotsFit Config.slotBytes s ∧ ∃ t, step s = .next t := by
  have hu : ∀ i, (issuing .u [.hcmd 0x33100000#64]).slot i = .u := by decide
  refine ⟨⟨by unfold SlotsFit; decide, _, rfl⟩, ?_, _, rfl⟩
  intro i
  rw [hu i]
  cases Config.slotBytes <;> simp [Value.fits, Value.size]

end Sys2Proof.Tests
end

section
/-! PROOFS. The family of 10_state.md: what one transaction can do to the slots and to `STATUS`, said once
(`Served`, `served_of_serve`), and the statements about state, invariants and noninterference that follow. -/

namespace Sys2Proof.Machine

/-! ### What the end of a command leaves in the slots and in `STATUS` -/

section Conclude

variable (c : Component) (k : ErrorKind) (rd j : SlotIx) (v : Value) (b : Bool) (s : State)

@[simp] theorem State.slot_conclude_raise : (s.conclude c (.raise k)).slot j = s.slot j := rfl
@[simp] theorem State.slot_conclude_setT : (s.conclude c (.setT b)).slot j = s.slot j := rfl
@[simp] theorem State.slot_conclude_write :
    (s.conclude c (.write rd v)).slot j = if j = rd then v else s.slot j :=
  State.slot_setSlot s rd j v

@[simp] theorem State.comp_conclude_write : (s.conclude c (.write rd v)).comp = 0 := by
  simp [State.conclude, State.succeed]
@[simp] theorem State.comp_conclude_setT : (s.conclude c (.setT b)).comp = 0 := by
  simp [State.conclude, State.succeed]

@[simp] theorem State.flagT_conclude_raise : (s.conclude c (.raise k)).flagT = s.flagT := by
  simp [State.conclude, State.raiseError]
@[simp] theorem State.flagT_conclude_write : (s.conclude c (.write rd v)).flagT = s.flagT := by
  simp [State.conclude, State.succeed]
@[simp] theorem State.flagT_conclude_setT : (s.conclude c (.setT b)).flagT = b := by
  simp [State.conclude, State.succeed]

end Conclude

/-! ### Reset -/

section Reset

variable (s : State) (j : SlotIx)

@[simp] theorem State.slot_hreset : (hreset s).slot j = .u := by simp [hreset, State.slot]
@[simp] theorem State.kind_hreset : (hreset s).kind = 0 := by simp [State.kind, Status.kind, hreset]
@[simp] theorem State.comp_hreset : (hreset s).comp = 0 := by simp [State.comp, Status.comp, hreset]
@[simp] theorem State.flagT_hreset : (hreset s).flagT = false := by simp [State.flagT, Status.flagT, hreset]
@[simp] theorem State.statusRest_hreset : (hreset s).statusRest = 0 := by
  simp [State.statusRest, Status.rest, hreset]

/-- The reset state is what `HRESET` makes of itself: what reset leaves need be said of `hreset` only. -/
theorem hreset_reset : hreset .reset = .reset := rfl

end Reset

/-- An unset slot fits every capacity. -/
@[simp] theorem Value.fits_u (cap : Option Nat) : Value.fits cap .u = true := by
  cases cap <;> simp [Value.fits, Value.size]

/-! ### How a command ends, read off its source slots -/

/-- The next state of a command is the conclusion of an allowed ending, which fits where the slots do. -/
theorem exec_ending {i : Instr} {s t : State} (h : exec i s = .next t) :
    ∃ c e, c.code = (Field.opcode (encode i)).extractLsb' 4 4 ∧ EndingAllowed i e ∧
      (∀ cap, SlotsFit cap s → EndingFits cap e) ∧ t = s.conclude c e := by
  obtain ⟨c, f, hc, he, ha, hfit⟩ := exec_shape i
  rw [he s] at h
  cases h
  refine ⟨c, _, hc, ha _, fun cap hs => hfit cap _ (by simp) fun v hv => ?_, rfl⟩
  obtain ⟨j, -, rfl⟩ := List.mem_map.mp hv
  exact hs j

/-- On states that agree on its source slots a command ends in the same way (R23). -/
theorem exec_same_ending {i : Instr} {s s' t t' : State} (hs : ∀ j ∈ sources i, s.slot j = s'.slot j)
    (h : exec i s = .next t) (h' : exec i s' = .next t') :
    ∃ c e, EndingAllowed i e ∧ t = s.conclude c e ∧ t' = s'.conclude c e := by
  obtain ⟨c, f, -, he, ha, -⟩ := exec_shape i
  rw [he s] at h
  rw [he s', ← List.map_congr_left hs] at h'
  cases h
  cases h'
  exact ⟨c, _, ha _, rfl, rfl⟩

/-! ### What one transaction can do -/

/-- How a command word can end, and for which unit: as the command it decodes to may, or, where it is illegal,
by raising IllegalCommand (R166). -/
inductive WordEnds (w : BitVec 64) : Component → Ending → Prop
  | legal {i c e} (hd : decode w = .ok i) (hc : c.code = (Field.opcode (encode i)).extractLsb' 4 4)
      (ha : EndingAllowed i e) : WordEnds w c e
  | illegal {x} (hd : decode w = .error x) : WordEnds w .shell (.raise .illegalCommand)

/-- What serving a transaction at `s` can make of it, slots holding `cap` bytes. -/
inductive Served (cap : Option Nat) (s : State) : Transaction → State → Prop
  /-- `HREAD`, `HSTATUS`, and `HWRITE` of a value that does not fit: only a reply -/
  | replied (x r) : Served cap s x (s.reply r)
  /-- an accepted `HWRITE` -/
  | written (i) {v : HostValue} (hv : v.toValue.fits cap = true) :
      Served cap s (.hwrite i v) ((s.setSlot i v.toValue).reply .accepted)
  /-- `HCMD` -/
  | commanded {w c e} (r) (hw : WordEnds w c e) (hfit : SlotsFit cap s → EndingFits cap e) :
      Served cap s (.hcmd w) ((s.conclude c e).reply r)
  /-- `HRESET` -/
  | reset : Served cap s .hreset (hreset s)

variable {cap : Option Nat} {s t : State} {x : Transaction}

theorem served_of_hcmd {w : BitVec 64} (h : serve cap (.hcmd w) s = .next t) : Served cap s (.hcmd w) t := by
  rcases serve_hcmd_cases h with ⟨i, u, hd, hu, ht⟩ | ⟨e, hd, ht⟩
  · obtain ⟨c, e, hc, ha, hfit, rfl⟩ := exec_ending hu
    cases ht
    exact .commanded _ (.legal hd hc ha) (hfit cap)
  · cases ht
    exact .commanded (e := .raise .illegalCommand) _ (.illegal hd) fun _ => trivial

theorem served_of_serve (h : serve cap x s = .next t) : Served cap s x t := by
  cases x with
  | hwrite i v =>
    simp only [serve, hwrite] at h
    split at h <;> cases h
    · exact .written i ‹_›
    · exact .replied _ _
  | hread i => cases h; exact .replied _ _
  | hstatus => cases h; exact .replied _ _
  | hcmd w => exact served_of_hcmd h
  | hreset => cases h; exact .reset

/-- A step is idle or serves the oldest transaction. -/
theorem served_of_stepWith (h : stepWith cap s = .next t) :
    s.pending = [] ∧ t = s ∨ ∃ x rest, s.pending = x :: rest ∧ Served cap { s with pending := rest } x t := by
  cases hp : s.pending with
  | nil => rw [stepWith_idle hp] at h; cases h; exact .inl ⟨rfl, rfl⟩
  | cons x rest => rw [stepWith_cons hp] at h; exact .inr ⟨x, rest, rfl, served_of_serve h⟩

/-- What does not look at the pending transactions, and every transaction keeps, every step keeps. -/
theorem stepWith_keeps {P : State → Prop} (hP : ∀ s p, P s → P { s with pending := p })
    (hserve : ∀ s x t, P s → Served cap s x t → P t) (hs : P s) (h : stepWith cap s = .next t) : P t := by
  rcases served_of_stepWith h with ⟨-, rfl⟩ | ⟨x, rest, -, hx⟩
  · exact hs
  · exact hserve _ x t (hP s rest hs) hx

/-! ### `STATUS` stays legal (R18, R168) -/

/-- R168: each kind a command may raise is legal with the unit of the command. -/
theorem legalOutcome_of_mayRaise {i : Instr} {k : BitVec 4} (h : k ∈ mayRaise i) :
    (k, (Field.opcode (encode i)).extractLsb' 4 4) ∈ legalOutcomes := by
  revert k
  cases i <;> simp [mayRaise, encode, encodeU, encodeS, encodeB, encodeI, legalOutcomes]

theorem statusLegal_conclude {w : BitVec 64} {c : Component} {e : Ending} (hw : WordEnds w c e)
    (hr : s.statusRest = 0) : StatusLegal (s.conclude c e) := by
  refine ⟨?_, by simpa using hr⟩
  cases hw with
  | illegal hd => simp [ErrorKind.code, Component.code, legalOutcomes]
  | legal hd hc ha =>
    cases e with
    | raise k => simpa [hc] using legalOutcome_of_mayRaise ha
    | write rd v => simp [legalOutcomes]
    | setT b => simp [legalOutcomes]

theorem statusLegal_hreset (s : State) : StatusLegal (hreset s) := by simp [StatusLegal, legalOutcomes]

theorem served_keeps_statusLegal (hs : StatusLegal s) (h : Served cap s x t) : StatusLegal t := by
  cases h with
  | replied => exact hs
  | written => exact hs
  | commanded r hw => exact statusLegal_conclude hw hs.2
  | reset => exact statusLegal_hreset s

/-- Settles O49: a transaction leaves `STATUS` as it is, resets it, or leaves a pair of R168's table. -/
theorem stepKeepsStatusLegal : Obligations.StepKeepsStatusLegal := by
  unfold Obligations.StepKeepsStatusLegal
  intro s t hs h
  exact stepWith_keeps (fun _ _ h => h) (fun _ _ _ => served_keeps_statusLegal) hs h

/-! ### Slots stay within their capacity (R17) -/

theorem slotsFit_setSlot {i : SlotIx} {v : Value} (hs : SlotsFit cap s) (hv : v.fits cap = true) :
    SlotsFit cap (s.setSlot i v) := by
  intro j
  rw [State.slot_setSlot]
  split
  · exact hv
  · exact hs j

theorem slotsFit_conclude {c : Component} {e : Ending} (hs : SlotsFit cap s) (he : EndingFits cap e) :
    SlotsFit cap (s.conclude c e) := by
  cases e with
  | raise k => exact hs
  | write rd v => exact slotsFit_setSlot hs he
  | setT b => exact hs

theorem slotsFit_hreset (cap : Option Nat) (s : State) : SlotsFit cap (hreset s) := fun j => by simp

theorem served_keeps_slotsFit (hs : SlotsFit cap s) (h : Served cap s x t) : SlotsFit cap t := by
  cases h with
  | replied => exact hs
  | written i hv => exact slotsFit_setSlot hs hv
  | commanded r _ hfit => exact slotsFit_conclude hs (hfit hs)
  | reset => exact slotsFit_hreset cap s

theorem stepWith_keeps_slotsFit (cap : Option Nat) (s t : State) (hs : SlotsFit cap s)
    (h : stepWith cap s = .next t) : SlotsFit cap t :=
  stepWith_keeps (fun _ _ h => h) (fun _ _ _ => served_keeps_slotsFit) hs h

/-- Settles O51: `HWRITE` is checked, and the result of a command fits where its operands do. -/
theorem stepKeepsSlotsWithinCapacity : Obligations.StepKeepsSlotsWithinCapacity := by
  unfold Obligations.StepKeepsSlotsWithinCapacity
  exact ⟨stepWith_keeps_slotsFit, stepWith_keeps_slotsFit _⟩

/-! ### Who writes `STATUS`, the slots and `STATUS.T` (R16, R18, R19, R25) -/

/-- Only a successful write changes a slot, and only its destination. -/
theorem eq_write_of_slot_conclude_ne {c : Component} {e : Ending} {j : SlotIx}
    (h : (s.conclude c e).slot j ≠ s.slot j) : ∃ v, e = .write j v := by
  cases e with
  | raise k => simp at h
  | setT b => simp at h
  | write rd v =>
    by_cases hj : j = rd
    · exact ⟨v, by rw [hj]⟩
    · simp [hj] at h

/-- Only a successful write of `STATUS.T` changes it. -/
theorem eq_setT_of_flagT_conclude_ne {c : Component} {e : Ending}
    (h : (s.conclude c e).flagT ≠ s.flagT) : ∃ b, e = .setT b := by
  cases e with
  | raise k => simp at h
  | write rd v => simp at h
  | setT b => exact ⟨b, rfl⟩

theorem status_ne_of_served (h : Served cap s x t) (ht : t.status ≠ s.status) :
    x = .hreset ∨ ∃ w, x = .hcmd w := by
  cases h with
  | replied => simp at ht
  | written => simp at ht
  | commanded => exact .inr ⟨_, rfl⟩
  | reset => exact .inl rfl

theorem slot_ne_of_served {j : SlotIx} (h : Served cap s x t) (ht : t.slot j ≠ s.slot j) :
    x = .hreset ∨ (∃ v, x = .hwrite j v ∧ t.slot j = v.toValue) ∨
      ∃ w i T, x = .hcmd w ∧ decode w = .ok i ∧ destination i = some (j, T) ∧ t.kind = 0 := by
  cases h with
  | replied => simp at ht
  | @written i v hv =>
    by_cases hj : j = i
    · subst hj; exact .inr (.inl ⟨v, rfl, by simp⟩)
    · simp [State.slot_setSlot_ne s _ hj] at ht
  | commanded r hw =>
    obtain ⟨v, rfl⟩ := eq_write_of_slot_conclude_ne (by simpa using ht)
    cases hw with
    | legal hd _ ha => exact .inr (.inr ⟨_, _, _, rfl, hd, ha, by simp⟩)
  | reset => exact .inl rfl

theorem flagT_ne_of_served (h : Served cap s x t) (ht : t.flagT ≠ s.flagT) :
    x = .hreset ∧ t.flagT = false ∨
      ∃ w ra, x = .hcmd w ∧ decode w = .ok (.isConsistentCarr ra) ∧ t.kind = 0 := by
  cases h with
  | replied => simp at ht
  | written => simp at ht
  | commanded r hw =>
    obtain ⟨b, rfl⟩ := eq_setT_of_flagT_conclude_ne (by simpa using ht)
    cases hw with
    | legal hd _ ha =>
      obtain ⟨ra, rfl⟩ := ha
      exact .inr ⟨_, ra, rfl, hd, by simp⟩
  | reset => exact .inl ⟨rfl, by simp⟩

/-- Settles O17: the cases of what one transaction can do. -/
theorem onlyCommandsHwriteAndResetWriteState : Obligations.OnlyCommandsHwriteAndResetWriteState := by
  unfold Obligations.OnlyCommandsHwriteAndResetWriteState
  intro s t x rest hp h
  have hx : Served _ { s with pending := rest } x t := served_of_serve ((stepWith_cons hp).symm.trans h)
  exact ⟨fun ht => status_ne_of_served hx ht, fun j ht => slot_ne_of_served hx ht⟩

theorem exec_flagT_ne {i : Instr} (h : exec i s = .next t) (ht : t.flagT ≠ s.flagT) :
    (∃ ra, i = .isConsistentCarr ra) ∧ t.kind = 0 := by
  obtain ⟨c, e, -, ha, rfl⟩ := exec_cases h
  obtain ⟨b, rfl⟩ := eq_setT_of_flagT_conclude_ne ht
  exact ⟨ha, by simp⟩

theorem step_flagT_ne (h : step s = .next t) (ht : t.flagT ≠ s.flagT) :
    ∃ x rest, s.pending = x :: rest ∧
      (x = .hreset ∧ t.flagT = false ∨
        ∃ w ra, x = .hcmd w ∧ decode w = .ok (.isConsistentCarr ra) ∧ t.kind = 0) := by
  rcases served_of_stepWith h with ⟨-, rfl⟩ | ⟨x, rest, hp, hx⟩
  · exact absurd rfl ht
  · exact ⟨x, rest, hp, flagT_ne_of_served hx ht⟩

/-! ### What a result depends on (R19, R23) -/

section SameEnding

variable {i : Instr} {c : Component} {e : Ending} (s s' : State)

theorem kind_conclude_eq : (s.conclude c e).kind = (s'.conclude c e).kind := by
  cases e <;> simp

theorem comp_conclude_eq : (s.conclude c e).comp = (s'.conclude c e).comp := by
  cases e <;> simp

/-- A successful command without a destination ends by writing `STATUS.T`, whatever it was before. -/
theorem flagT_conclude_eq (ha : EndingAllowed i e) (hi : destination i = none)
    (hk : (s.conclude c e).kind = 0) : (s.conclude c e).flagT = (s'.conclude c e).flagT := by
  cases e with
  | raise k => simp at hk
  | write rd v => exact absurd (hi.symm.trans ha) (by simp)
  | setT b => simp

/-- A successful command leaves the same value in its destination, whatever was there before. -/
theorem slot_destination_conclude_eq {r : SlotIx} {T : Tag} (ha : EndingAllowed i e)
    (hi : destination i = some (r, T)) (hk : (s.conclude c e).kind = 0) :
    (s.conclude c e).slot r = (s'.conclude c e).slot r := by
  cases e with
  | raise k => simp at hk
  | write rd v =>
    obtain ⟨rfl, -⟩ : r = rd ∧ T = v.tag := by simpa using hi.symm.trans ha
    simp
  | setT b =>
    obtain ⟨ra, rfl⟩ := ha
    simp [destination] at hi

theorem slot_conclude_eq {j : SlotIx} (h : s.slot j = s'.slot j) :
    (s.conclude c e).slot j = (s'.conclude c e).slot j := by
  cases e <;> simp [h]

end SameEnding

/-- No command reads `STATUS.T` (R19). -/
theorem exec_setT_same {i : Instr} {u : State} {b : Bool} (h : exec i s = .next t)
    (h' : exec i (s.setT b) = .next u) :
    u.kind = t.kind ∧ u.comp = t.comp ∧ (∀ j, u.slot j = t.slot j) ∧
      ((∃ ra, i = .isConsistentCarr ra) → t.kind = 0 → u.flagT = t.flagT) := by
  obtain ⟨c, e, ha, rfl, rfl⟩ := exec_same_ending (fun j _ => (State.slot_setT s j b).symm) h h'
  refine ⟨kind_conclude_eq _ _, comp_conclude_eq _ _,
    fun j => slot_conclude_eq _ _ (State.slot_setT s j b), ?_⟩
  rintro ⟨ra, rfl⟩ hk
  exact (flagT_conclude_eq s _ ha rfl hk).symm

/-- Settles O46: the only ending that writes `STATUS.T` is the validator's, and endings are read off slots. -/
theorem onlyTheValidatorWritesT : Obligations.OnlyTheValidatorWritesT := by
  unfold Obligations.OnlyTheValidatorWritesT
  exact ⟨fun _ _ _ => exec_flagT_ne, fun _ _ => step_flagT_ne, rfl, fun _ _ _ _ _ => exec_setT_same⟩

/-- Settles O47: on states that agree on the sources the ending is the same, and it fixes the result. -/
theorem resultDependsOnlyOnTheNamedSlots : Obligations.ResultDependsOnlyOnTheNamedSlots := by
  unfold Obligations.ResultDependsOnlyOnTheNamedSlots
  intro i s s' t t' hs h h'
  obtain ⟨c, e, ha, rfl, rfl⟩ := exec_same_ending hs h h'
  exact ⟨kind_conclude_eq s s', comp_conclude_eq s s', fun hk =>
    ⟨fun r T hi => slot_destination_conclude_eq s s' ha hi hk, fun hi => flagT_conclude_eq s s' ha hi hk⟩⟩

/-! ### Sizes and reset values (R17, R24, R185) -/

/-- Settles O8: `size` by its clauses, and `Value.fits_some`. -/
theorem valueFitsIffItsSizeIsWithinCapacity : Obligations.ValueFitsIffItsSizeIsWithinCapacity := by
  unfold Obligations.ValueFitsIffItsSizeIsWithinCapacity
  exact ⟨rfl, fun _ => rfl, fun _ => rfl, fun _ => rfl, rfl, fun x c => by simp [Value.size], fun _ => rfl,
    fun n v => Value.fits_some v n⟩

/-- Settles O12: the step serves `HRESET`, whose fields stand above. -/
theorem hresetSetsEveryResetValue : Obligations.HresetSetsEveryResetValue := by
  unfold Obligations.HresetSetsEveryResetValue
  intro s rest hp
  have h : step s = .next (hreset { s with pending := rest }) := stepWith_cons hp
  exact ⟨_, h, State.slot_hreset _, State.kind_hreset _, State.comp_hreset _, State.flagT_hreset _,
    State.statusRest_hreset _, rfl⟩

/-- Settles O13: the reset state is what `HRESET` leaves. -/
theorem resetStateHoldsTheResetValues : Obligations.ResetStateHoldsTheResetValues := by
  unfold Obligations.ResetStateHoldsTheResetValues
  rw [← hreset_reset]
  exact ⟨State.slot_hreset _, State.kind_hreset _, State.comp_hreset _, State.flagT_hreset _,
    State.statusRest_hreset _⟩

/-- Settles O50: reset leaves `KIND`, `COMP` and the rest 0. -/
theorem resetStatusIsLegal : Obligations.ResetStatusIsLegal := by
  unfold Obligations.ResetStatusIsLegal
  exact hreset_reset ▸ statusLegal_hreset .reset

/-- Settles O52: an unset slot fits every capacity. -/
theorem resetSlotsFit : Obligations.ResetSlotsFit := by
  unfold Obligations.ResetSlotsFit
  exact fun cap => hreset_reset ▸ slotsFit_hreset cap .reset

end Sys2Proof.Machine
end

section
/-! PROOFS. The family of 20_memory.md: the host port. What a step makes of the transaction at the head, what
serving one leaves pending and replies, and runs of several; then repeating a command (R37). -/

namespace Sys2Proof.Machine

variable {cap : Option Nat} {s t u : State} {x : Transaction} {rest : List Transaction} {i : SlotIx}

/-! ### One step, by the transaction it serves -/

/-- The machine's step is that of its own capacity. -/
theorem step_cons (h : s.pending = x :: rest) :
    step s = serve Config.slotBytes x { s with pending := rest } := stepWith_cons h

theorem serve_hwrite_of_fits {v : HostValue} (h : v.toValue.fits cap = true) :
    serve cap (.hwrite i v) s = .next ((s.setSlot i v.toValue).reply .accepted) := by
  simp only [serve, hwrite, if_pos h]

theorem serve_hwrite_of_not_fits {v : HostValue} (h : v.toValue.fits cap = false) :
    serve cap (.hwrite i v) s = .next (s.reply .refused) := by
  simp [serve, hwrite, h]

/-- `HRESET` replies nothing (R185). -/
@[simp] theorem State.replies_hreset (s : State) : (hreset s).replies = s.replies := rfl

theorem step_hread (h : s.pending = .hread i :: rest) :
    step s = .next { s with pending := rest, replies := s.replies ++ [.value (s.slot i)] } := step_cons h

theorem step_hstatus (h : s.pending = .hstatus :: rest) :
    step s = .next { s with pending := rest, replies := s.replies ++ [.status s.statusWord] } := step_cons h

theorem step_hcmd_ok {c : BitVec 64} {i : Instr} (h : s.pending = .hcmd c :: rest) (hd : decode c = .ok i) :
    step s = replyStatus (exec i { s with pending := rest }) := by
  rw [step_cons h]
  simp only [serve, hcmd, hd]

/-- Settles O5: the end of the command decides the step's outcome. -/
theorem stepRunsTheDecodedCommand : Obligations.StepRunsTheDecodedCommand := by
  unfold Obligations.StepRunsTheDecodedCommand
  intro s c rest i hp hd _
  rw [step_hcmd_ok hp hd]
  exact ⟨fun t h => by rw [h]; rfl, fun f h => by rw [h]; rfl, fun r h => by rw [h]; rfl⟩

/-- Settles O9: by whether the value fits. -/
theorem hwriteWritesWhatFitsAndRefusesTheRest : Obligations.HwriteWritesWhatFitsAndRefusesTheRest := by
  unfold Obligations.HwriteWritesWhatFitsAndRefusesTheRest
  refine ⟨fun _ => rfl, fun cap s i v rest hp => ?_⟩
  rw [stepWith_cons hp]
  cases hv : v.toValue.fits cap with
  | true =>
    exact ⟨_, serve_hwrite_of_fits hv, rfl, rfl,
      fun _ => ⟨State.slot_setSlot_same _ i _, fun j hj => State.slot_setSlot_ne _ _ hj, rfl⟩, nofun⟩
  | false =>
    exact ⟨_, serve_hwrite_of_not_fits hv, rfl, rfl, nofun, fun _ => ⟨fun _ => rfl, rfl⟩⟩

/-- Settles O11: the reply is `STATUS` as the host reads it, with the fields of `STATUS` and 0 above them. -/
theorem hstatusRepliesStatusAndChangesNothing : Obligations.HstatusRepliesStatusAndChangesNothing := by
  unfold Obligations.HstatusRepliesStatusAndChangesNothing
  intro s rest hp
  refine ⟨s.statusWord, step_hstatus hp, Status.kind_read _, Status.comp_read _, Status.flagT_read _,
    fun k hk => ?_⟩
  have hk9 : ¬ k < 9 := by omega
  simp [State.statusWord, Status.getLsbD_read, hk9]

/-! ### What serving a transaction leaves pending and replies -/

theorem pending_of_served (h : Served cap s x t) : t.pending = s.pending := by
  cases h with
  | replied | written | reset => rfl
  | commanded => simp

theorem pending_of_serve (h : serve cap x s = .next t) : t.pending = s.pending :=
  pending_of_served (served_of_serve h)

/-- Every transaction but `HRESET` is answered by exactly one reply. -/
theorem replies_of_served (hx : x ≠ .hreset) (h : Served cap s x t) : ∃ r, t.replies = s.replies ++ [r] := by
  cases h with
  | replied _ r => exact ⟨r, rfl⟩
  | written => exact ⟨.accepted, rfl⟩
  | commanded r => exact ⟨r, by simp⟩
  | reset => exact absurd rfl hx

/-- Settles O15: a step is idle or serves the head, and serving always completes. -/
theorem everyTransactionCompletesAndIsAnsweredOnce : Obligations.EveryTransactionCompletesAndIsAnsweredOnce := by
  unfold Obligations.EveryTransactionCompletesAndIsAnsweredOnce
  intro s
  obtain ⟨t, ht⟩ := step_next s
  refine ⟨t, ht, fun x rest hp => ?_⟩
  have hserve : serve Config.slotBytes x { s with pending := rest } = .next t := (step_cons hp).symm.trans ht
  refine ⟨pending_of_serve hserve, ?_, fun hx => (replies_of_served hx (served_of_serve hserve) :)⟩
  rintro rfl
  cases hserve
  exact State.replies_hreset _

/-! ### Runs -/

theorem run_succ (h : step s = .next t) (k : Nat) :
    Host.Core.run Sys2Proof.core (k + 1) s = Host.Core.run Sys2Proof.core k t := by
  simp only [Host.Core.run, show Sys2Proof.core.step s = .next t from h]

/-- An `HREAD` behind another transaction reads the slot as that transaction left it. -/
theorem run_two_of_hread (hp : s.pending = x :: .hread i :: rest)
    (h : serve Config.slotBytes x { s with pending := .hread i :: rest } = .next t) :
    Host.Core.run Sys2Proof.core 2 s =
      .next { t with pending := rest, replies := t.replies ++ [.value (t.slot i)] } := by
  rw [run_succ ((step_cons hp).trans h), run_succ (step_hread (pending_of_serve h))]
  rfl

/-- Settles O10: the step that serves `HREAD`, and what each transaction before it leaves in the slot. -/
theorem hreadRepliesTheSlotAndChangesNothing : Obligations.HreadRepliesTheSlotAndChangesNothing := by
  unfold Obligations.HreadRepliesTheSlotAndChangesNothing
  refine ⟨fun _ _ _ => step_hread, ?_, ?_, ?_⟩
  · intro s i v rest hp hv
    exact ⟨_, run_two_of_hread hp (serve_hwrite_of_fits hv), by simp⟩
  · intro s c i rd v rest hp hd hw
    obtain ⟨t, ht, hslot, -, -, -, -, -, -, hreplies⟩ := hw
    exact ⟨_, t.statusWord, run_two_of_hread hp (serve_hcmd_ok hd ht), by simp [hslot, hreplies]⟩
  · intro s i rest hp
    exact ⟨_, run_two_of_hread (t := hreset _) hp rfl, by simp⟩

/-- Whatever stands behind it, a transaction makes of the state what it makes of it alone at the port. -/
theorem step_alone_and_queued (x : Transaction) (s : State) (rest : List Transaction) :
    ∃ t, step { s with pending := [x] } = .next t ∧ t.pending = [] ∧
      step { s with pending := x :: rest } = .next { t with pending := rest } := by
  obtain ⟨t, ht, hp, hrest⟩ := serve_withPending Config.slotBytes x { s with pending := [] } rest
  exact ⟨t, (step_cons rfl).trans ht, hp, (step_cons rfl).trans hrest⟩

theorem run_applies_in_order (xs later : List Transaction) (s : State) :
    ∃ u, applyInOrder xs { s with pending := [] } = some u ∧
      Host.Core.run Sys2Proof.core xs.length { s with pending := xs ++ later } =
        .next { u with pending := later } := by
  induction xs generalizing s with
  | nil => exact ⟨_, rfl, rfl⟩
  | cons x xs ih =>
    obtain ⟨t, halone, hp, hqueued⟩ := step_alone_and_queued x s (xs ++ later)
    obtain ⟨u, hu, hrun⟩ := ih t
    have ht : { t with pending := [] } = t := by rw [← hp]
    refine ⟨u, ?_, (run_succ hqueued _).trans hrun⟩
    simp only [applyInOrder, halone]
    exact ht ▸ hu

/-- Settles O16, by induction on the transactions. -/
theorem runAppliesTransactionsInIssueOrder : Obligations.RunAppliesTransactionsInIssueOrder := by
  unfold Obligations.RunAppliesTransactionsInIssueOrder
  intro s xs later hp
  have hs : { s with pending := xs ++ later } = s := by rw [← hp]
  simpa only [hs] using run_applies_in_order xs later s

/-! ### Repeating a command (R37) -/

/-- An ending writes constants, so reaching it a second time changes nothing. -/
theorem conclude_conclude (c : Component) (e : Ending) (s : State) :
    (s.conclude c e).conclude c e = s.conclude c e := by
  refine State.ext_slots (fun j => ?_) (kind_conclude_eq _ _) (comp_conclude_eq _ _) ?_ (by simp) (by simp) (by simp)
  · cases e with
    | raise k => rfl
    | write rd v => by_cases hj : j = rd <;> simp [hj]
    | setT b => rfl
  · cases e <;> simp

/-- Settles O48: with its sources unchanged the command ends the second time as it did the first. -/
theorem repeatingACommandChangesNothingMore : Obligations.RepeatingACommandChangesNothingMore := by
  unfold Obligations.RepeatingACommandChangesNothingMore
  intro i s t u h hs h'
  obtain ⟨c, e, -, rfl, rfl⟩ := exec_same_ending (fun j hj => (hs j hj).symm) h h'
  exact conclude_conclude c e s

end Sys2Proof.Machine
end

section
/-! PROOFS. The family of 30_encoding.md. The encoder and the table of R53 agree row by row (`encode_make`), from
which the decoder and the encoder are inverse to each other and each row's command is read off mask, match and
fields; then illegal words (R55), and what every command may write (R58) and reads before it writes (R59). -/

namespace Sys2Proof

/-! ### The encoder and the table (R53) -/

section Rows

variable {c : BitVec 64} {r : OpRow} {im : BitVec 32} {d a b : SlotIx}

/-- Looking up the opcode of a row of the table finds that row. -/
theorem find?_opcode_of_mem (hr : r ∈ opRows) : opRows.find? (fun q => q.opcode == r.opcode) = some r := by
  cases hq : opRows.find? (fun q => q.opcode == r.opcode) with
  | none => simpa using List.find?_eq_none.mp hq r hr
  | some q =>
    have hop : q.opcode = r.opcode := by simpa using List.find?_some hq
    rw [List.inj_on_of_nodup_map opRows_opcodes_distinct (List.mem_of_find?_eq_some hq) hr hop]

/-- The command a row names encodes to the word of the row's opcode and the row's fields. -/
theorem encode_make (hr : r ∈ opRows) (hz : r.form.fieldsZero im d b) :
    encode (r.make d a b im.toInt) = Field.ofFields im r.opcode d a b := by
  fin_cases hr <;> simp_all [Form.fieldsZero, encode, encodeU, encodeS, encodeB, encodeI]

/-- The command a row names is well-formed: an immediate field reads as a number in range. -/
theorem wellFormed_make (hr : r ∈ opRows) : (r.make d a b im.toInt).wellFormed = true := by
  fin_cases hr <;> simp [Instr.wellFormed, simmInRange_toInt]

theorem fieldsZero_of_matches (hm : c &&& r.form.mask = r.matchWord) :
    r.form.fieldsZero (Field.imm c) (Field.rd c) (Field.rb c) := by
  cases hf : r.form with
  | U => exact ⟨imm_of_matches hm (by simp [hf]), rb_of_matches hm (by simp [hf])⟩
  | S => exact ⟨imm_of_matches hm (by simp [hf]), rd_of_matches hm hf, rb_of_matches hm (by simp [hf])⟩
  | B => exact imm_of_matches hm (by simp [hf])
  | I => exact rb_of_matches hm (by simp [hf])

end Rows

/-! ### Decoding after encoding -/

section Forms

variable {op : BitVec 8} {rd ra rb : SlotIx} {n : Int}

theorem decode_encodeU {mk : SlotIx → SlotIx → Instr} (hr : ⟨op, .U, fun d a _ _ => mk d a⟩ ∈ opRows) :
    decode (encodeU op rd ra) = .ok (mk rd ra) :=
  decode_ofFields (find?_opcode_of_mem hr) (im := 0) (b := 0) ⟨rfl, rfl⟩

theorem decode_encodeS {mk : SlotIx → Instr} (hr : ⟨op, .S, fun _ a _ _ => mk a⟩ ∈ opRows) :
    decode (encodeS op ra) = .ok (mk ra) :=
  decode_ofFields (find?_opcode_of_mem hr) (im := 0) (d := 0) (b := 0) ⟨rfl, rfl, rfl⟩

theorem decode_encodeB {mk : SlotIx → SlotIx → SlotIx → Instr}
    (hr : ⟨op, .B, fun d a b _ => mk d a b⟩ ∈ opRows) :
    decode (encodeB op rd ra rb) = .ok (mk rd ra rb) :=
  decode_ofFields (find?_opcode_of_mem hr) (im := 0) rfl

theorem decode_encodeI {mk : SlotIx → SlotIx → Int → Instr}
    (hr : ⟨op, .I, fun d a _ n => mk d a n⟩ ∈ opRows) (hn : simmInRange n = true) : decode (encodeI op rd ra n) = .ok (mk rd ra n) := by
  have h := decode_ofFields (find?_opcode_of_mem hr) (im := BitVec.ofInt 32 n) (d := rd) (a := ra) (b := 0) rfl
  simp only [toInt_ofInt_of_simmInRange hn] at h
  exact h

end Forms

/-- Settles O1, by the form of the instruction's row. -/
theorem decodeOfEncodeIsTheInstruction : Obligations.DecodeOfEncodeIsTheInstruction := by
  unfold Obligations.DecodeOfEncodeIsTheInstruction
  intro i hi
  cases i with
  | barr2warrL | barr2warrB | warr2barrL | warr2barrB | barr2dwarrL | barr2dwarrB | dwarr2barrL | dwarr2barrB
  | carr2barrL | carr2barrB | dwarrNot =>
    exact decode_encodeU (by simp [opRows, evcRows, cbRows, bluRows, sreRows])
  | isConsistentCarr => exact decode_encodeS (by simp [opRows, evcRows, cbRows, bluRows, sreRows])
  | dwarrAnd | dwarrOr | dwarrXor => exact decode_encodeB (by simp [opRows, evcRows, cbRows, bluRows, sreRows])
  | barr2carrL | barr2carrB | dwarrLShift | dwarrRShiftZ | dwarrRShiftS | dwarrLRotate | dwarrRRotate =>
    exact decode_encodeI (by simp [opRows, evcRows, cbRows, bluRows, sreRows]) hi

/-! ### Encoding after decoding -/

theorem encode_of_decode {c : BitVec 64} {i : Instr} (h : decode c = .ok i) : encode i = c := by
  obtain ⟨r, hr, hop, hm, rfl⟩ := row_of_decode h
  calc encode (r.make (Field.rd c) (Field.ra c) (Field.rb c) (Field.simm c))
      = Field.ofFields (Field.imm c) (Field.opcode c) (Field.rd c) (Field.ra c) (Field.rb c) := by
        rw [← hop]; exact encode_make hr (fieldsZero_of_matches hm)
    _ = c := Field.ofFields_fields (low_of_matches hm)

theorem wellFormed_of_decode {c : BitVec 64} {i : Instr} (h : decode c = .ok i) : i.wellFormed = true := by
  obtain ⟨r, hr, -, -, rfl⟩ := row_of_decode h
  exact wellFormed_make hr

/-- Settles O2: the row that accepts the word fixes every bit outside the fields the command keeps. -/
theorem encodeOfDecodeIsTheWord : Obligations.EncodeOfDecodeIsTheWord := by
  unfold Obligations.EncodeOfDecodeIsTheWord
  exact fun c i h => ⟨encode_of_decode h, wellFormed_of_decode h⟩

end Sys2Proof

namespace Sys2Proof.Machine

/-! ### The command of a row, by mask, match and fields (R51, R54) -/

section DecodeIff

variable {c : BitVec 64} {rd ra rb : SlotIx} {n : Int} {op : BitVec 8} {m : BitVec 64}

/-- A word that decodes to a row's command meets the row's mask and match, and its fields are the command's. -/
theorem fields_of_decode_make {r : OpRow} (hr : r ∈ opRows) {im : BitVec 32} (hz : r.form.fieldsZero im rd rb)
    (h : decode c = .ok (r.make rd ra rb im.toInt)) :
    c &&& r.form.mask = r.matchWord ∧ rd = slotField c 20 ∧ ra = slotField c 16 ∧ rb = slotField c 12 ∧
      im.toInt = immField c := by
  obtain rfl : Field.ofFields im r.opcode rd ra rb = c := (encode_make hr hz).symm.trans (encode_of_decode h)
  exact ⟨ofFields_matches r hz, by simp [slotField_rd, slotField_ra, slotField_rb, immField_eq]⟩

/-- A word that meets a row's mask and match is the row's command. -/
theorem decode_of_mem_of_matches {r : OpRow} (hr : r ∈ opRows) (hm : c &&& r.form.mask = r.matchWord) :
    decode c = .ok (r.make (slotField c 20) (slotField c 16) (slotField c 12) (immField c)) := by
  rw [slotField_rd, slotField_ra, slotField_rb, immField_eq]
  exact decode_of_matches (find?_opcode_of_mem hr) hm

/-- Form `U`: row `k` of the table, whose match is `m`. -/
theorem decodeU_iff (k : Nat) {mk : SlotIx → SlotIx → Instr}
    (hk : opRows[k]? = some ⟨op, .U, fun d a _ _ => mk d a⟩) (hop : op.setWidth 64 <<< 24 = m) :
    decode c = .ok (mk rd ra) ↔ c &&& Form.U.mask = m ∧ rd = slotField c 20 ∧ ra = slotField c 16 := by
  subst hop
  have hr := List.mem_of_getElem? hk
  constructor
  · intro h
    obtain ⟨hm, hd, ha, -⟩ := fields_of_decode_make hr (im := 0) (rb := 0) ⟨rfl, rfl⟩ h
    exact ⟨hm, hd, ha⟩
  · rintro ⟨hm, rfl, rfl⟩
    exact decode_of_mem_of_matches hr hm

/-- Form `S`. -/
theorem decodeS_iff (k : Nat) {mk : SlotIx → Instr}
    (hk : opRows[k]? = some ⟨op, .S, fun _ a _ _ => mk a⟩) (hop : op.setWidth 64 <<< 24 = m) :
    decode c = .ok (mk ra) ↔ c &&& Form.S.mask = m ∧ ra = slotField c 16 := by
  subst hop
  have hr := List.mem_of_getElem? hk
  constructor
  · intro h
    obtain ⟨hm, -, ha, -⟩ := fields_of_decode_make hr (im := 0) (rd := 0) (rb := 0) ⟨rfl, rfl, rfl⟩ h
    exact ⟨hm, ha⟩
  · rintro ⟨hm, rfl⟩
    exact decode_of_mem_of_matches hr hm

/-- Form `B`. -/
theorem decodeB_iff (k : Nat) {mk : SlotIx → SlotIx → SlotIx → Instr}
    (hk : opRows[k]? = some ⟨op, .B, fun d a b _ => mk d a b⟩) (hop : op.setWidth 64 <<< 24 = m) :
    decode c = .ok (mk rd ra rb) ↔
      c &&& Form.B.mask = m ∧ rd = slotField c 20 ∧ ra = slotField c 16 ∧ rb = slotField c 12 := by
  subst hop
  have hr := List.mem_of_getElem? hk
  constructor
  · intro h
    obtain ⟨hm, hd, ha, hb, -⟩ := fields_of_decode_make hr (im := 0) rfl h
    exact ⟨hm, hd, ha, hb⟩
  · rintro ⟨hm, rfl, rfl, rfl⟩
    exact decode_of_mem_of_matches hr hm

/-- Form `I`: the command's count is in range, or no word would decode to it. -/
theorem decodeI_iff (k : Nat) {mk : SlotIx → SlotIx → Int → Instr}
    (hk : opRows[k]? = some ⟨op, .I, fun d a _ n => mk d a n⟩) (hop : op.setWidth 64 <<< 24 = m)
    (hwf : (mk rd ra n).wellFormed = simmInRange n) :
    decode c = .ok (mk rd ra n) ↔
      c &&& Form.I.mask = m ∧ rd = slotField c 20 ∧ ra = slotField c 16 ∧ n = immField c := by
  subst hop
  have hr := List.mem_of_getElem? hk
  constructor
  · intro h
    have hn : (BitVec.ofInt 32 n).toInt = n :=
      toInt_ofInt_of_simmInRange (hwf.symm.trans (wellFormed_of_decode h))
    rw [← hn] at h
    obtain ⟨hm, hd, ha, -, him⟩ := fields_of_decode_make hr (im := BitVec.ofInt 32 n) (rb := 0) rfl h
    exact ⟨hm, hd, ha, hn.symm.trans him⟩
  · rintro ⟨hm, rfl, rfl, rfl⟩
    exact decode_of_mem_of_matches hr hm

/-- The statements' table is that of the decoder. -/
theorem tableRows_eq : tableRows = opRows.map fun r => (r.form.mask, r.matchWord) := rfl

/-- R55: the words that decode are those that meet a row. -/
theorem exists_row_iff_decodes : (∃ r ∈ tableRows, c &&& r.1 = r.2) ↔ ∃ i, decode c = .ok i := by
  rw [tableRows_eq]
  constructor
  · rintro ⟨p, hp, hm⟩
    obtain ⟨r, hr, rfl⟩ := List.mem_map.mp hp
    exact ⟨_, decode_of_mem_of_matches hr hm⟩
  · rintro ⟨i, h⟩
    obtain ⟨r, hr, -, hm, -⟩ := row_of_decode h
    exact ⟨_, List.mem_map_of_mem hr, hm⟩

theorem decode_error_of_no_row (h : ∀ r ∈ tableRows, c &&& r.1 ≠ r.2) : ∃ e, decode c = .error e := by
  cases hd : decode c with
  | error e => exact ⟨e, rfl⟩
  | ok i =>
    obtain ⟨r, hr, hm⟩ := exists_row_iff_decodes.mpr ⟨i, hd⟩
    exact absurd hm (h r hr)

end DecodeIff

/-- Settles O3, row by row in the order of the table. -/
theorem wordIsTheCommandOfARowIffMaskMatches : Obligations.WordIsTheCommandOfARowIffMaskMatches := by
  unfold Obligations.WordIsTheCommandOfARowIffMaskMatches
  intro c rd ra rb n
  exact ⟨decode_error_of_no_row,
    decodeU_iff 0 rfl rfl, decodeU_iff 1 rfl rfl, decodeU_iff 2 rfl rfl, decodeU_iff 3 rfl rfl,
    decodeU_iff 4 rfl rfl, decodeU_iff 5 rfl rfl, decodeU_iff 6 rfl rfl, decodeU_iff 7 rfl rfl,
    decodeI_iff 8 rfl rfl rfl, decodeI_iff 9 rfl rfl rfl, decodeU_iff 10 rfl rfl, decodeU_iff 11 rfl rfl,
    decodeS_iff 12 rfl rfl,
    decodeB_iff 13 rfl rfl, decodeB_iff 14 rfl rfl, decodeB_iff 15 rfl rfl, decodeU_iff 16 rfl rfl,
    decodeI_iff 17 rfl rfl rfl, decodeI_iff 18 rfl rfl rfl, decodeI_iff 19 rfl rfl rfl,
    decodeI_iff 20 rfl rfl rfl, decodeI_iff 21 rfl rfl rfl⟩

/-- Settles O4: the decoder run on each word. -/
theorem wordsWrittenOutInTheSpecDecode : Obligations.WordsWrittenOutInTheSpecDecode := by
  unfold Obligations.WordsWrittenOutInTheSpecDecode
  exact ⟨rfl, rfl, rfl, rfl, rfl, rfl, rfl, rfl, rfl, rfl, rfl, rfl⟩

/-- Settles O6: a word of no row does not decode, and the host port then raises IllegalCommand. -/
theorem illegalWordRaisesIllegalCommand : Obligations.IllegalWordRaisesIllegalCommand := by
  unfold Obligations.IllegalWordRaisesIllegalCommand
  refine ⟨fun c => exists_row_iff_decodes, fun s c rest hp hc => ?_⟩
  obtain ⟨e, hd⟩ := decode_error_of_no_row hc
  exact ⟨_, (step_cons hp).trans (serve_hcmd_error hd), by simp [State.raiseError, ErrorKind.code, Component.code]⟩

/-! ### What a command writes (R58) -/

/-- A successful command with a destination leaves there a value of the tag it fixes. -/
theorem tag_destination_conclude {i : Instr} {c : Component} {e : Ending} {s : State} {r : SlotIx} {T : Tag}
    (ha : EndingAllowed i e) (hi : destination i = some (r, T)) (hk : (s.conclude c e).kind = 0) :
    ((s.conclude c e).slot r).tag = T := by
  cases e with
  | raise k => simp at hk
  | write rd v =>
    obtain ⟨rfl, rfl⟩ : r = rd ∧ T = v.tag := by simpa using hi.symm.trans ha
    simp
  | setT b =>
    obtain ⟨ra, rfl⟩ := ha
    simp [destination] at hi

/-- Settles O45: the only ending that changes a slot is a successful write of the destination. -/
theorem onlyTheDestinationIsWrittenAndOnlyOnSuccess : Obligations.OnlyTheDestinationIsWrittenAndOnlyOnSuccess := by
  unfold Obligations.OnlyTheDestinationIsWrittenAndOnlyOnSuccess
  intro i s t h
  obtain ⟨c, e, -, ha, rfl⟩ := exec_cases h
  refine ⟨fun j hj => ?_, fun r T hi hk => tag_destination_conclude ha hi hk⟩
  obtain ⟨v, rfl⟩ := eq_write_of_slot_conclude_ne hj
  exact ⟨by simp, _, ha⟩

/-! ### Sources are read before the destination is written (R59) -/

/-- A unit rule, as a function of the destination slot, raises an error or writes a value, the same whatever the
destination. -/
def SameWhateverDestination (f : SlotIx → Ending) : Prop :=
  (∃ k, ∀ r, f r = .raise k) ∨ ∃ v, ∀ r, f r = .write r v

namespace SameWhateverDestination

theorem raise (k : ErrorKind) : SameWhateverDestination fun _ => .raise k := .inl ⟨k, fun _ => rfl⟩
theorem write (v : Value) : SameWhateverDestination fun r => .write r v := .inr ⟨v, fun _ => rfl⟩

theorem withBA {v : Value} {k : SlotIx → List Byte → Ending} (h : ∀ b, SameWhateverDestination (k · b)) :
    SameWhateverDestination fun r => Machine.withBA v (k r) := by
  cases v with
  | ba b => exact h b
  | _ => exact raise _

theorem withWA {v : Value} {k : SlotIx → List Word → Ending} (h : ∀ w, SameWhateverDestination (k · w)) :
    SameWhateverDestination fun r => Machine.withWA v (k r) := by
  cases v with
  | wa w => exact h w
  | _ => exact raise _

theorem withDA {v : Value} {k : SlotIx → Superword → Ending} (h : ∀ d, SameWhateverDestination (k · d)) :
    SameWhateverDestination fun r => Machine.withDA v (k r) := by
  cases v with
  | da d => exact h d
  | _ => exact raise _

theorem withCA {v : Value} {k : SlotIx → Composite → Ending} (h : ∀ c, SameWhateverDestination (k · c)) :
    SameWhateverDestination fun r => Machine.withCA v (k r) := by
  cases v with
  | ca c => exact h c
  | _ => exact raise _

variable {k : SlotIx → Ending}

theorem checkLength (unit : Nat) (b : List Byte) (h : SameWhateverDestination k) :
    SameWhateverDestination fun r => Machine.checkLength unit b (k r) := by
  unfold Machine.checkLength; split
  · exact h
  · exact raise _

theorem checkEqualLimbs (a b : Superword) (h : SameWhateverDestination k) :
    SameWhateverDestination fun r => Machine.checkEqualLimbs a b (k r) := by
  unfold Machine.checkEqualLimbs; split
  · exact h
  · exact raise _

theorem checkSize (n : Int) {k : SlotIx → Nat → Ending} (h : ∀ S, SameWhateverDestination (k · S)) :
    SameWhateverDestination fun r => Machine.checkSize n (k r) := by
  unfold Machine.checkSize; split
  · exact raise _
  · exact h _

theorem checkCount (n : Int) {k : SlotIx → Nat → Ending} (h : ∀ m, SameWhateverDestination (k · m)) :
    SameWhateverDestination fun r => Machine.checkCount n (k r) := by
  unfold Machine.checkCount; split
  · exact raise _
  · exact h _

end SameWhateverDestination

/-- The rule of a command that has a destination is of this kind: one check or combination of checks of its
operands, then the write. -/
theorem exec_retarget {i : Instr} {r : SlotIx} {T : Tag} (hi : destination i = some (r, T)) (s : State) :
    ∃ c f, SameWhateverDestination f ∧ ∀ r', exec (retarget r' i) s = finish c (f r') s := by
  cases i with
  | barr2warrL | barr2warrB | barr2dwarrL | barr2dwarrB =>
    exact ⟨_, _, .withBA fun _ => .checkLength _ _ (.write _), fun _ => rfl⟩
  | warr2barrL | warr2barrB => exact ⟨_, _, .withWA fun _ => .write _, fun _ => rfl⟩
  | dwarr2barrL | dwarr2barrB | dwarrNot | dwarrLRotate | dwarrRRotate =>
    exact ⟨_, _, .withDA fun _ => .write _, fun _ => rfl⟩
  | barr2carrL | barr2carrB =>
    exact ⟨_, _, .withBA fun _ => .checkSize _ fun _ => .checkLength _ _ (.write _), fun _ => rfl⟩
  | carr2barrL | carr2barrB => exact ⟨_, _, .withCA fun _ => .write _, fun _ => rfl⟩
  | isConsistentCarr => simp [destination] at hi
  | dwarrAnd | dwarrOr | dwarrXor =>
    exact ⟨_, _, .withDA fun _ => .withDA fun _ => .checkEqualLimbs _ _ (.write _), fun _ => rfl⟩
  | dwarrLShift | dwarrRShiftZ | dwarrRShiftS =>
    exact ⟨_, _, .withDA fun _ => .checkCount _ fun _ => .write _, fun _ => rfl⟩

/-- A command is itself with its own destination. -/
theorem retarget_destination {i : Instr} {r : SlotIx} {T : Tag} (hi : destination i = some (r, T)) :
    retarget r i = i := by
  cases i <;> cases hi <;> rfl

/-- Two conclusions that differ in the destination alone leave the same outcome and the same value. -/
theorem conclude_same_whatever_destination {f : SlotIx → Ending} (hf : SameWhateverDestination f) (c : Component)
    (s : State) (r r' : SlotIx) :
    (s.conclude c (f r')).kind = (s.conclude c (f r)).kind ∧
      (s.conclude c (f r')).comp = (s.conclude c (f r)).comp ∧
      ((s.conclude c (f r)).kind = 0 → (s.conclude c (f r')).slot r' = (s.conclude c (f r)).slot r) := by
  rcases hf with ⟨k, hk⟩ | ⟨v, hv⟩
  · simp [hk]
  · simp [hv]

theorem dwarrXor_self (a : Superword) : F.dwarrXor a a = List.replicate a.length 0 := by
  simp [F.dwarrXor, List.zipWith_self]

/-- Settles O33: the rule reads the slots as they were, so the destination does not enter its result. -/
theorem sourcesAreReadBeforeTheDestinationIsWritten : Obligations.SourcesAreReadBeforeTheDestinationIsWritten := by
  unfold Obligations.SourcesAreReadBeforeTheDestinationIsWritten
  constructor
  · intro i s t u r r' T hi ht hu
    obtain ⟨c, f, hf, he⟩ := exec_retarget hi s
    rw [← retarget_destination hi, he r] at ht
    rw [he r'] at hu
    cases ht
    cases hu
    exact conclude_same_whatever_destination hf c s r r'
  · intro s rd ra a ha
    rw [← dwarrXor_self]
    refine completesWriting_of_finish (c := .blu) ?_
    rw [← logicEnding_ok rfl, ← ha]
    rfl

end Sys2Proof.Machine
end

section
/-! PROOFS. The family of 41_endian_view_converter.md. How a command that checks the tag of one source, and
perhaps the length of its bytes, ends (R71); then each pair of commands of R72 to R79 from the elements its pure
function gives, in the rule's own formula; then the round trips (R80). -/

namespace Sys2Proof.Machine

/-! ### The checks of one source (R71) -/

section OneSource

variable {i : Instr} {s : State} {rd ra : SlotIx} {v : Value} {b : List Byte} {w : List Word} {d : Superword}

/-- A rule that takes a byte array from `ra` raises TypeMismatch on any other shape. -/
theorem endsInError_of_tag_ne_BA (c : Component) {k} (h : exec i s = finish c (withBA (s.slot ra) k) s)
    (ht : (s.slot ra).tag ≠ .BA) : EndsInError i s 1 c.code := by
  rw [withBA_of_tag_ne ht] at h
  exact endsInError_of_finish h

theorem endsInError_of_tag_ne_WA (c : Component) {k} (h : exec i s = finish c (withWA (s.slot ra) k) s)
    (ht : (s.slot ra).tag ≠ .WA) : EndsInError i s 1 c.code := by
  rw [withWA_of_tag_ne ht] at h
  exact endsInError_of_finish h

theorem endsInError_of_tag_ne_DA (c : Component) {k} (h : exec i s = finish c (withDA (s.slot ra) k) s)
    (ht : (s.slot ra).tag ≠ .DA) : EndsInError i s 1 c.code := by
  rw [withDA_of_tag_ne ht] at h
  exact endsInError_of_finish h

/-- On the shape it takes, a command ends as its rule does on the contents. -/
theorem endsInError_of_ba (c : Component) (e : ErrorKind) {k} (h : exec i s = finish c (withBA (s.slot ra) k) s)
    (ha : s.slot ra = .ba b) (hk : k b = .raise e) : EndsInError i s e.code c.code := by
  rw [ha, withBA_ba, hk] at h
  exact endsInError_of_finish h

theorem completesWriting_of_ba {c : Component} {k} (h : exec i s = finish c (withBA (s.slot ra) k) s)
    (ha : s.slot ra = .ba b) (hk : k b = .write rd v) : CompletesWriting i s rd v := by
  rw [ha, withBA_ba, hk] at h
  exact completesWriting_of_finish h

theorem completesWriting_of_wa {c : Component} {k} (h : exec i s = finish c (withWA (s.slot ra) k) s)
    (ha : s.slot ra = .wa w) (hk : k w = .write rd v) : CompletesWriting i s rd v := by
  rw [ha, withWA_wa, hk] at h
  exact completesWriting_of_finish h

theorem completesWriting_of_da {c : Component} {k} (h : exec i s = finish c (withDA (s.slot ra) k) s)
    (ha : s.slot ra = .da d) (hk : k d = .write rd v) : CompletesWriting i s rd v := by
  rw [ha, withDA_da, hk] at h
  exact completesWriting_of_finish h

end OneSource

/-! ### Byte arrays to words and limbs (R72, R73, R76, R77) -/

/-- The `B` rules write the formula of R70 with the most significant byte first. -/
theorem wordOfBytes_eq_or_high_first (hi lo : Byte) :
    wordOfBytes hi lo = hi.setWidth 16 <<< 8 ||| lo.setWidth 16 := by
  rw [wordOfBytes_eq_or, BitVec.or_comm]

theorem limbOfBytes_eq_or_high_first (b3 b2 b1 b0 : Byte) :
    limbOfBytes b3 b2 b1 b0 =
      b3.setWidth 32 <<< 24 ||| b2.setWidth 32 <<< 16 ||| b1.setWidth 32 <<< 8 ||| b0.setWidth 32 := by
  rw [limbOfBytes_eq_or, BitVec.or_comm, BitVec.or_comm (_ ||| _), BitVec.or_comm (b0.setWidth 32),
    ← BitVec.or_assoc, ← BitVec.or_assoc]

/-- Settles O18: the two checks of R71, then the words of R70's formulas. -/
theorem byteArrayToWordArray : Obligations.ByteArrayToWordArray := by
  unfold Obligations.ByteArrayToWordArray
  refine ⟨rfl, rfl, fun s rd ra => ⟨fun ht => ?_, fun a ha => ⟨fun hl => ?_, fun hl => ?_⟩⟩⟩
  · exact ⟨endsInError_of_tag_ne_BA .evc rfl ht, endsInError_of_tag_ne_BA .evc rfl ht⟩
  · exact ⟨endsInError_of_ba .evc .lengthMismatch rfl ha (checkLength_bad hl _),
      endsInError_of_ba .evc .lengthMismatch rfl ha (checkLength_bad hl _)⟩
  · refine ⟨F.barr2warrL a, F.barr2warrB a, completesWriting_of_ba rfl ha (checkLength_ok hl _),
      completesWriting_of_ba rfl ha (checkLength_ok hl _), F.length_barr2warrL a, F.length_barr2warrB a,
      fun i b0 b1 h0 h1 => ?_⟩
    rw [← wordOfBytes_eq_or, ← wordOfBytes_eq_or_high_first]
    exact ⟨F.getElem?_barr2warrL h0 h1, F.getElem?_barr2warrB h0 h1⟩

/-- Settles O20: as O18, with units of four bytes. -/
theorem byteArrayToLimbArray : Obligations.ByteArrayToLimbArray := by
  unfold Obligations.ByteArrayToLimbArray
  refine ⟨rfl, rfl, fun s rd ra => ⟨fun ht => ?_, fun a ha => ⟨fun hl => ?_, fun hl => ?_⟩⟩⟩
  · exact ⟨endsInError_of_tag_ne_BA .evc rfl ht, endsInError_of_tag_ne_BA .evc rfl ht⟩
  · exact ⟨endsInError_of_ba .evc .lengthMismatch rfl ha (checkLength_bad hl _),
      endsInError_of_ba .evc .lengthMismatch rfl ha (checkLength_bad hl _)⟩
  · refine ⟨F.barr2dwarrL a, F.barr2dwarrB a, completesWriting_of_ba rfl ha (checkLength_ok hl _),
      completesWriting_of_ba rfl ha (checkLength_ok hl _), F.length_barr2dwarrL a, F.length_barr2dwarrB a,
      fun i b0 b1 b2 b3 h0 h1 h2 h3 => ?_⟩
    rw [← limbOfBytes_eq_or, ← limbOfBytes_eq_or_high_first]
    exact ⟨F.getElem?_barr2dwarrL h0 h1 h2 h3, F.getElem?_barr2dwarrB h0 h1 h2 h3⟩

/-! ### Words and limbs to byte arrays (R74, R75, R78, R79) -/

/-- Settles O19: the tag check of R71, then the two bytes of each word. -/
theorem wordArrayToByteArray : Obligations.WordArrayToByteArray := by
  unfold Obligations.WordArrayToByteArray
  refine ⟨rfl, rfl, fun s rd ra => ⟨fun ht => ?_, fun a ha => ?_⟩⟩
  · exact ⟨endsInError_of_tag_ne_WA .evc rfl ht, endsInError_of_tag_ne_WA .evc rfl ht⟩
  · refine ⟨F.warr2barrL a, F.warr2barrB a, completesWriting_of_wa rfl ha rfl, completesWriting_of_wa rfl ha rfl,
      F.length_warr2barrL a, F.length_warr2barrB a, fun i x hx => ?_⟩
    rw [← wordByte_zero, ← wordByte_one]
    exact and_assoc.mp ⟨F.getElem?_warr2barrL hx, F.getElem?_warr2barrB hx⟩

/-- Settles O21: the tag check of R71, then the four bytes of each limb, from either end. -/
theorem limbArrayToByteArray : Obligations.LimbArrayToByteArray := by
  unfold Obligations.LimbArrayToByteArray
  refine ⟨rfl, rfl, fun s rd ra => ⟨fun ht => ?_, fun a ha => ?_⟩⟩
  · exact ⟨endsInError_of_tag_ne_DA .evc rfl ht, endsInError_of_tag_ne_DA .evc rfl ht⟩
  · refine ⟨F.dwarr2barrL a, F.dwarr2barrB a, completesWriting_of_da rfl ha rfl, completesWriting_of_da rfl ha rfl,
      F.length_dwarr2barrL a, F.length_dwarr2barrB a, fun i j x hx hj => ?_⟩
    have hhigh : 24 - 8 * j = 8 * (3 - j) := by omega
    rw [hhigh, ← limbByte_eq, ← limbByte_eq]
    exact ⟨F.getElem?_dwarr2barrL hx hj, F.getElem?_dwarr2barrB hx hj⟩

/-! ### Round trips (R80) -/

/-- The two variants write the bytes of each limb in opposite orders. -/
theorem getElem?_dwarr2barrB_eq_dwarr2barrL {d : List Limb} {i j : Nat} (hi : i < d.length) (hj : j < 4) :
    (F.dwarr2barrB d)[4 * i + j]? = (F.dwarr2barrL d)[4 * i + (3 - j)]? := by
  have hx : d[i]? = some d[i] := List.getElem?_eq_getElem hi
  rw [F.getElem?_dwarr2barrB hx hj, F.getElem?_dwarr2barrL hx (by omega)]

/-- Settles O22: the round trips of each variant; mixing them, the `B` bytes are the `L` bytes, which are those of
`b`, with each group reversed. -/
theorem endianConversionsAreMutuallyInverse : Obligations.EndianConversionsAreMutuallyInverse := by
  unfold Obligations.EndianConversionsAreMutuallyInverse
  refine ⟨fun b h => ⟨F.warr2barrL_barr2warrL h, F.warr2barrB_barr2warrB h⟩,
    fun b h => ⟨F.dwarr2barrL_barr2dwarrL h, F.dwarr2barrB_barr2dwarrB h⟩,
    fun w => ⟨F.barr2warrL_warr2barrL w, F.barr2warrB_warr2barrB w⟩,
    fun d => ⟨F.barr2dwarrL_dwarr2barrL d, F.barr2dwarrB_dwarr2barrB d⟩, fun b h => ⟨?_, fun i j hj hij => ?_⟩⟩
  · rw [F.length_dwarr2barrB, F.length_barr2dwarrL]
    omega
  · have hi : i < (F.barr2dwarrL b).length := by
      rw [F.length_barr2dwarrL]
      omega
    rw [getElem?_dwarr2barrB_eq_dwarr2barrL hi hj, F.dwarr2barrL_barr2dwarrL h]

end Sys2Proof.Machine
end

section
/-! PROOFS. The family of 42_composite_builder.md. How the checks of a builder come out (R92); which bytes make a
limb of a chunk, and the integer a chunk becomes (R91, R93, R94); the bytes of a composite, ragged or not (R95,
R96); the validator (R100); then the statements that run one command after another (R102, R103). -/

namespace Sys2Proof.Machine

/-! ### The checks of a builder, in order (R92) -/

section Checks

variable {n : Int} {b : List Byte} {k : Nat → Ending}

/-- The length check is made on natural numbers, R92 on the signed size. -/
theorem length_mod_toNat_eq_zero_iff (h0 : 0 < n) : b.length % n.toNat = 0 ↔ (b.length : Int) % n = 0 := by
  obtain ⟨S, rfl⟩ := Int.eq_ofNat_of_zero_le h0.le
  exact_mod_cast Iff.rfl

theorem checkSize_checkLength_ok (h0 : 0 < n) (h4 : n % 4 = 0) (hl : (b.length : Int) % n = 0) :
    (checkSize n fun S => checkLength S b (k S)) = k n.toNat := by
  rw [checkSize_ok h0 h4, checkLength_ok ((length_mod_toNat_eq_zero_iff h0).mpr hl)]

theorem checkSize_checkLength_bad (h0 : 0 < n) (h4 : n % 4 = 0) (hl : (b.length : Int) % n ≠ 0) :
    (checkSize n fun S => checkLength S b (k S)) = .raise .lengthMismatch := by
  rw [checkSize_ok h0 h4, checkLength_bad (mt (length_mod_toNat_eq_zero_iff h0).mp hl)]

end Checks

/-! ### How the five commands complete -/

section Completes

variable {i : Instr} {s : State} {rd ra : SlotIx} {n : Int} {a : List Byte} {cs : Composite}

theorem completesWriting_barr2carrL (ha : s.slot ra = .ba a) (h0 : 0 < n) (h4 : n % 4 = 0)
    (hl : (a.length : Int) % n = 0) :
    CompletesWriting (.barr2carrL rd ra n) s rd (.ca (F.barr2carrL n.toNat a)) :=
  completesWriting_of_ba rfl ha (checkSize_checkLength_ok h0 h4 hl)

theorem completesWriting_barr2carrB (ha : s.slot ra = .ba a) (h0 : 0 < n) (h4 : n % 4 = 0)
    (hl : (a.length : Int) % n = 0) :
    CompletesWriting (.barr2carrB rd ra n) s rd (.ca (F.barr2carrB n.toNat a)) :=
  completesWriting_of_ba rfl ha (checkSize_checkLength_ok h0 h4 hl)

/-- A rule that takes a composite from `ra` raises TypeMismatch on any other shape. -/
theorem endsInError_of_tag_ne_CA (c : Component) {k} (h : exec i s = finish c (withCA (s.slot ra) k) s)
    (ht : (s.slot ra).tag ≠ .CA) : EndsInError i s 1 c.code := by
  rw [withCA_of_tag_ne ht] at h
  exact endsInError_of_finish h

theorem completesWriting_of_ca {c : Component} {v : Value} {k} (h : exec i s = finish c (withCA (s.slot ra) k) s)
    (ha : s.slot ra = .ca cs) (hk : k cs = .write rd v) : CompletesWriting i s rd v := by
  rw [ha, withCA_ca, hk] at h
  exact completesWriting_of_finish h

theorem completesSettingT_of_ca {c : Component} {t : Bool} {k} (h : exec i s = finish c (withCA (s.slot ra) k) s)
    (ha : s.slot ra = .ca cs) (hk : k cs = .setT t) : CompletesSettingT i s t := by
  rw [ha, withCA_ca, hk] at h
  exact completesSettingT_of_finish h

theorem completesWriting_carr2barrL (ha : s.slot ra = .ca cs) :
    CompletesWriting (.carr2barrL rd ra) s rd (.ba (F.carr2barrL cs)) :=
  completesWriting_of_ca rfl ha rfl

theorem completesWriting_carr2barrB (ha : s.slot ra = .ca cs) :
    CompletesWriting (.carr2barrB rd ra) s rd (.ba (F.carr2barrB cs)) :=
  completesWriting_of_ca rfl ha rfl

theorem completesSettingT_isConsistentCarr (ha : s.slot ra = .ca cs) :
    CompletesSettingT (.isConsistentCarr ra) s (F.isConsistentCarr cs) :=
  completesSettingT_of_ca rfl ha rfl

end Completes

/-! ### Chunks and their limbs (R91, R93, R94) -/

namespace F

section Chunk

variable {S k : Nat} {b : List Byte}

theorem length_chunk (hk : k < b.length / S) : ((b.drop (k * S)).take S).length = S :=
  length_of_mem_chunks (List.mem_of_getElem? (getElem?_chunks hk))

theorem getElem?_chunk {j : Nat} (hj : j < S) : ((b.drop (k * S)).take S)[j]? = b[k * S + j]? := by
  rw [List.getElem?_take_of_lt hj, List.getElem?_drop]

end Chunk

/-- Bytes `4i` to `4i+3`, reversed with the whole array, make limb `i` counted from the end. -/
theorem getElem?_barr2dwarrB_reverse {b : List Byte} {i : Nat} {b0 b1 b2 b3 : Byte} (h4 : b.length % 4 = 0)
    (h0 : b[4 * i]? = some b0) (h1 : b[4 * i + 1]? = some b1) (h2 : b[4 * i + 2]? = some b2)
    (h3 : b[4 * i + 3]? = some b3) :
    (barr2dwarrB b.reverse)[b.length / 4 - 1 - i]? = some (limbOfBytes b3 b2 b1 b0) := by
  have hlt : 4 * i + 3 < b.length := (List.getElem?_eq_some_iff.mp h3).1
  have hrev : ∀ j < 4, b.reverse[4 * (b.length / 4 - 1 - i) + j]? = b[4 * i + (3 - j)]? := fun j hj =>
    List.getElem?_reverse' (by omega)
  exact getElem?_barr2dwarrB ((hrev 0 (by decide)).trans h3) ((hrev 1 (by decide)).trans h2)
    ((hrev 2 (by decide)).trans h1) ((hrev 3 (by decide)).trans h0)

end F

/-- Settles O23: the three checks of R92 in order, then each superword is its chunk, decoded. -/
theorem builderMakesOneSuperwordAChunk : Obligations.BuilderMakesOneSuperwordAChunk := by
  unfold Obligations.BuilderMakesOneSuperwordAChunk
  refine ⟨rfl, rfl, fun s rd ra n => ⟨fun ht => ?_, fun a ha =>
    ⟨fun hn => ?_, fun h0 h4 hl => ?_, fun h0 h4 hl => ?_⟩⟩⟩
  · exact ⟨endsInError_of_tag_ne_BA .cb rfl ht, endsInError_of_tag_ne_BA .cb rfl ht⟩
  · exact ⟨endsInError_of_ba .cb .sizeConstraint rfl ha (checkSize_bad hn _),
      endsInError_of_ba .cb .sizeConstraint rfl ha (checkSize_bad hn _)⟩
  · exact ⟨endsInError_of_ba .cb .lengthMismatch rfl ha (checkSize_checkLength_bad h0 h4 hl),
      endsInError_of_ba .cb .lengthMismatch rfl ha (checkSize_checkLength_bad h0 h4 hl)⟩
  · refine ⟨_, _, completesWriting_barr2carrL ha h0 h4 hl, completesWriting_barr2carrB ha h0 h4 hl,
      F.length_barr2carrL _ a, F.length_barr2carrB _ a, fun k hk => ?_⟩
    have hL := F.getElem?_barr2carrL hk
    have hB := F.getElem?_barr2carrB hk
    have hS := F.length_chunk hk
    refine ⟨_, _, hL, hB, F.length_of_mem_barr2carrL (List.mem_of_getElem? hL),
      F.length_of_mem_barr2carrB (List.mem_of_getElem? hB), fun i b0 b1 b2 b3 hi e0 e1 e2 e3 => ?_⟩
    rw [← F.getElem?_chunk (by omega)] at e0
    rw [Nat.add_assoc, ← F.getElem?_chunk (by omega)] at e1 e2 e3
    rw [← limbOfBytes_eq_or_high_first, ← limbOfBytes_eq_or_high_first]
    refine ⟨F.getElem?_barr2dwarrB e0 e1 e2 e3, ?_⟩
    have h := F.getElem?_barr2dwarrB_reverse (by omega) e0 e1 e2 e3
    rwa [hS] at h

/-- Settles O24: a chunk decoded is the integer of its bytes, and that of the reversed bytes is the
little-endian one. -/
theorem builtSuperwordIsTheIntegerOfItsChunk : Obligations.BuiltSuperwordIsTheIntegerOfItsChunk := by
  unfold Obligations.BuiltSuperwordIsTheIntegerOfItsChunk
  intro s rd ra n a ha h0 h4 hl
  refine ⟨_, _, completesWriting_barr2carrL ha h0 h4 hl, completesWriting_barr2carrB ha h0 h4 hl,
    fun k sl sb hsl hsb => ?_⟩
  have hk : k < a.length / n.toNat := by simpa using (List.getElem?_eq_some_iff.mp hsb).1
  have hS := F.length_chunk hk
  rw [F.getElem?_barr2carrL hk] at hsl
  rw [F.getElem?_barr2carrB hk] at hsb
  cases hsl
  cases hsb
  rw [← bigEndian_reverse]
  exact ⟨val_barr2dwarrB (by rw [List.length_reverse]; omega), val_barr2dwarrB (by omega)⟩

/-- Settles O29: the chunk of 8 bytes, decoded as it is and reversed. -/
theorem endiannessContractExample : Obligations.EndiannessContractExample := by
  unfold Obligations.EndiannessContractExample
  intro s ha
  exact ⟨completesWriting_barr2carrB ha (by decide) (by decide) (by decide),
    completesWriting_barr2carrL ha (by decide) (by decide) (by decide)⟩

/-! ### The bytes of a composite (R95, R96) -/

namespace F

section Bytes

variable {cs : Composite} {x : Superword} {y : Limb} {k i j : Nat}

/-- The superwords before the `k`-th take up the bytes before its own. -/
theorem getElem?_carr2barrB (hx : cs[k]? = some x) (hy : x[i]? = some y) (hj : j < 4) :
    (carr2barrB cs)[(Value.ca (cs.take k)).size + (4 * i + j)]? = some (limbByte y (3 - j)) := by
  have hi : i < x.length := (List.getElem?_eq_some_iff.mp hy).1
  have h := getElem?_flatMap_at dwarr2barrB hx (p := 4 * i + j) (by rw [length_dwarr2barrB]; omega)
  simpa only [carr2barrB, Value.size, length_dwarr2barrB, getElem?_dwarr2barrB hy hj] using h

theorem getElem?_carr2barrL (hx : cs[k]? = some x) (hy : x[i]? = some y) (hj : j < 4) :
    (carr2barrL cs)[(Value.ca (cs.take k)).size + (4 * x.length - 1 - (4 * i + j))]? = some (limbByte y (3 - j)) := by
  have hi : i < x.length := (List.getElem?_eq_some_iff.mp hy).1
  have hrev : (dwarr2barrB x).reverse[4 * x.length - 1 - (4 * i + j)]? = (dwarr2barrB x)[4 * i + j]? :=
    List.getElem?_reverse' (by rw [length_dwarr2barrB]; omega)
  have h := getElem?_flatMap_at (fun s => (dwarr2barrB s).reverse) hx (p := 4 * x.length - 1 - (4 * i + j))
    (by rw [List.length_reverse, length_dwarr2barrB]; omega)
  simpa only [carr2barrL, Value.size, List.length_reverse, length_dwarr2barrB, hrev, getElem?_dwarr2barrB hy hj] using h

end Bytes

end F

/-- Settles O25: the tag check, then the bytes of each superword where the sizes of those before it put them. -/
theorem compositeToByteArray : Obligations.CompositeToByteArray := by
  unfold Obligations.CompositeToByteArray
  refine ⟨rfl, rfl, fun s rd ra => ⟨fun ht => ?_, fun cs hc => ?_⟩⟩
  · exact ⟨endsInError_of_tag_ne_CA .cb rfl ht, endsInError_of_tag_ne_CA .cb rfl ht⟩
  · refine ⟨_, _, completesWriting_carr2barrL hc, completesWriting_carr2barrB hc, F.length_carr2barrL cs,
      F.length_carr2barrB cs, fun k i j x y hx hy hj => ?_⟩
    have hhigh : 24 - 8 * j = 8 * (3 - j) := by omega
    rw [hhigh, ← limbByte_eq]
    exact ⟨F.getElem?_carr2barrB hx hy hj, F.getElem?_carr2barrL hx hy hj⟩

/-! ### The validator (R100) -/

/-- Settles O26: the tag check, then what the predicate of R100 says of the composite. -/
theorem validatorAnswersInStatusT : Obligations.ValidatorAnswersInStatusT := by
  unfold Obligations.ValidatorAnswersInStatusT
  refine ⟨rfl, fun s ra => ⟨fun ht => endsInError_of_tag_ne_CA .cb rfl ht, fun c hc => ?_⟩⟩
  have h := completesSettingT_isConsistentCarr hc
  refine ⟨fun hall => ?_, fun ⟨x, hx, y, hy, hne⟩ => ?_⟩
  · rwa [(F.isConsistentCarr_iff c).mpr hall] at h
  · have hf : F.isConsistentCarr c = false :=
      Bool.eq_false_iff.mpr fun ht => hne ((F.isConsistentCarr_iff c).mp ht x hx y hy)
    rwa [hf] at h

/-! ### One command after another (R102, R103) -/

/-- Two commands in a row, the second reading what the first wrote. -/
theorem CompletesWriting.followedBy {i j : Instr} {s : State} {rm rd : SlotIx} {v w : Value}
    (hi : CompletesWriting i s rm v) (hj : ∀ t : State, t.slot rm = v → CompletesWriting j t rd w) :
    ∃ t u, exec i s = .next t ∧ exec j t = .next u ∧ u.slot rd = w := by
  obtain ⟨t, ht, hv, -⟩ := hi
  obtain ⟨u, hu, hw, -⟩ := hj t hv
  exact ⟨t, u, ht, hu, hw⟩

/-- The bytes of a composite of superwords of `m` limbs fill chunks of `4 * m`, so they can be built again. -/
theorem size_ca_of_length {m : Nat} {c : Composite} (h : ∀ x ∈ c, x.length = m) :
    (Value.ca c).size = 4 * m * c.length := by
  have hc : c.map (fun x => 4 * x.length) = c.map fun _ => 4 * m := List.map_congr_left fun x hx => by rw [h x hx]
  simp only [Value.size, hc, List.map_const', List.sum_replicate, smul_eq_mul, Nat.mul_comm]

/-- Settles O27: the round trips of the functions, each command reading what the one before wrote. -/
theorem compositeRoundTrip : Obligations.CompositeRoundTrip := by
  unfold Obligations.CompositeRoundTrip
  refine ⟨fun s rm rd ra n a ha h0 h4 hl => ?_, fun s rm rd ra m c hc hm hlen => ?_⟩
  · have h0' : 0 < n.toNat := by omega
    have h4' : n.toNat % 4 = 0 := by omega
    have hl' := (length_mod_toNat_eq_zero_iff h0).mpr hl
    refine ⟨(completesWriting_barr2carrL ha h0 h4 hl).followedBy fun t ht => ?_,
      (completesWriting_barr2carrB ha h0 h4 hl).followedBy fun t ht => ?_⟩
    · simpa only [F.carr2barrL_barr2carrL h0' h4' hl'] using completesWriting_carr2barrL ht
    · simpa only [F.carr2barrB_barr2carrB h0' h4' hl'] using completesWriting_carr2barrB ht
  · have h0 : 0 < (4 * m : Int) := by omega
    have h4 : (4 * m : Int) % 4 = 0 := by omega
    have hS : (4 * m : Int).toNat = 4 * m := by omega
    have hl : ((Value.ca c).size : Int) % (4 * m) = 0 := by
      rw [size_ca_of_length hlen]
      push_cast
      exact Int.mul_emod_right _ _
    refine ⟨(completesWriting_carr2barrL hc).followedBy fun t ht => ?_,
      (completesWriting_carr2barrB hc).followedBy fun t ht => ?_⟩
    · have h := completesWriting_barr2carrL (rd := rd) ht h0 h4 (by rwa [F.length_carr2barrL])
      rwa [hS, F.barr2carrL_carr2barrL hm hlen] at h
    · have h := completesWriting_barr2carrB (rd := rd) ht h0 h4 (by rwa [F.length_carr2barrB])
      rwa [hS, F.barr2carrB_carr2barrB hm hlen] at h

/-- How the rule of a builder that makes its composites by `f` can end. -/
inductive BuilderEnds (f : Nat → List Byte → Composite) (rd : SlotIx) : Ending → Prop
  | raise (k) : BuilderEnds f rd (.raise k)
  | write (S a) : BuilderEnds f rd (.write rd (.ca (f S a)))

theorem builderEnds (f : Nat → List Byte → Composite) (rd : SlotIx) (n : Int) (v : Value) :
    BuilderEnds f rd (withBA v fun a => checkSize n fun S => checkLength S a (.write rd (.ca (f S a)))) :=
  withBA_elim (.raise _) fun _ _ => checkSize_elim (.raise _) fun _ _ => checkLength_elim (.raise _) fun _ => .write _ _

/-- A builder that succeeds has written what its function makes of some byte array, in chunks of some size. -/
theorem BuilderEnds.slot_rd_conclude {f : Nat → List Byte → Composite} {rd : SlotIx} {e : Ending} {c : Component}
    {s : State} (he : BuilderEnds f rd e) (hk : (s.conclude c e).kind = 0) :
    ∃ S a, (s.conclude c e).slot rd = .ca (f S a) := by
  cases he with
  | raise k => simp at hk
  | write S a => exact ⟨S, a, by simp⟩

/-- Settles O28: every superword a builder makes has `S / 4` limbs. -/
theorem builtCompositeIsConsistent : Obligations.BuiltCompositeIsConsistent := by
  unfold Obligations.BuiltCompositeIsConsistent
  intro s t rd ra n h hk
  have hbuilt : ∃ c, t.slot rd = .ca c ∧ F.isConsistentCarr c = true := by
    rcases h with h | h <;> cases h
    · obtain ⟨S, a, hslot⟩ := (builderEnds F.barr2carrL rd n (s.slot ra)).slot_rd_conclude hk
      exact ⟨_, hslot, F.isConsistentCarr_of_length fun _ => F.length_of_mem_barr2carrL⟩
    · obtain ⟨S, a, hslot⟩ := (builderEnds F.barr2carrB rd n (s.slot ra)).slot_rd_conclude hk
      exact ⟨_, hslot, F.isConsistentCarr_of_length fun _ => F.length_of_mem_barr2carrB⟩
  obtain ⟨c, hslot, hc⟩ := hbuilt
  rw [← hc]
  exact completesSettingT_isConsistentCarr hslot

end Sys2Proof.Machine
end

section
/-! PROOFS. The family of 43_bitwise_logic.md. How the three commands of two operands end, read off `logicEnding`
(R111), and the limbs of their results (R112 to R114); the complement (R115); then each function as the operation
on the integers (R116), where the two cancellation laws are read off the integers. -/

namespace Sys2Proof.Machine

/-! ### How a command of two operands ends (R111) -/

section LogicEnding

variable {i : Instr} {s : State} {rd ra rb : SlotIx} {f : Superword → Superword → Superword} {a b : Superword}

theorem endsInError_of_logic_tag_ne (h : exec i s = finish .blu (logicEnding f rd (s.slot ra) (s.slot rb)) s)
    (ht : (s.slot ra).tag ≠ .DA ∨ (s.slot rb).tag ≠ .DA) : EndsInError i s 1 3 := by
  rw [logicEnding_of_tag_ne ht] at h
  exact endsInError_of_finish h

theorem endsInError_of_logic_length_ne (h : exec i s = finish .blu (logicEnding f rd (s.slot ra) (s.slot rb)) s)
    (ha : s.slot ra = .da a) (hb : s.slot rb = .da b) (hl : a.length ≠ b.length) : EndsInError i s 5 3 := by
  rw [ha, hb, logicEnding_bad hl] at h
  exact endsInError_of_finish h

theorem completesWriting_of_logic (h : exec i s = finish .blu (logicEnding f rd (s.slot ra) (s.slot rb)) s)
    (ha : s.slot ra = .da a) (hb : s.slot rb = .da b) (hl : a.length = b.length) :
    CompletesWriting i s rd (.da (f a b)) := by
  rw [ha, hb, logicEnding_ok hl] at h
  exact completesWriting_of_finish h

end LogicEnding

/-! ### The limbs of the results (R112 to R115) -/

namespace F

section Limbs

variable {a b : Superword} {i : Nat} {p q : Limb}

theorem length_dwarrAnd (h : a.length = b.length) : (dwarrAnd a b).length = a.length := by simp [dwarrAnd, h]
theorem length_dwarrOr (h : a.length = b.length) : (dwarrOr a b).length = a.length := by simp [dwarrOr, h]
theorem length_dwarrXor (h : a.length = b.length) : (dwarrXor a b).length = a.length := by simp [dwarrXor, h]
@[simp] theorem length_dwarrNot (a : Superword) : (dwarrNot a).length = a.length := List.length_map _

theorem getElem?_dwarrAnd (hp : a[i]? = some p) (hq : b[i]? = some q) : (dwarrAnd a b)[i]? = some (p &&& q) := by
  simp [dwarrAnd, List.getElem?_zipWith, hp, hq]
theorem getElem?_dwarrOr (hp : a[i]? = some p) (hq : b[i]? = some q) : (dwarrOr a b)[i]? = some (p ||| q) := by
  simp [dwarrOr, List.getElem?_zipWith, hp, hq]
theorem getElem?_dwarrXor (hp : a[i]? = some p) (hq : b[i]? = some q) : (dwarrXor a b)[i]? = some (p ^^^ q) := by
  simp [dwarrXor, List.getElem?_zipWith, hp, hq]

/-- The one's complement of a limb is the limb of all ones less it. -/
theorem getElem?_dwarrNot (hp : a[i]? = some p) : (dwarrNot a)[i]? = some (0xFFFFFFFF#32 - p) := by
  have hnot : 0xFFFFFFFF#32 - p = ~~~p := BitVec.allOnes_sub_eq_not p
  rw [dwarrNot, List.getElem?_map, hp, hnot, Option.map_some]

end Limbs

end F

/-- Settles O30: the tag check, the limb counts, then the limbs of each function. -/
theorem binaryLogicIsLimbWise : Obligations.BinaryLogicIsLimbWise := by
  unfold Obligations.BinaryLogicIsLimbWise
  refine ⟨rfl, rfl, rfl, fun s rd ra rb => ⟨fun ht => ?_, fun a b ha hb => ⟨fun hl => ?_, fun hl => ?_⟩⟩⟩
  · exact ⟨endsInError_of_logic_tag_ne rfl ht, endsInError_of_logic_tag_ne rfl ht,
      endsInError_of_logic_tag_ne rfl ht⟩
  · exact ⟨endsInError_of_logic_length_ne rfl ha hb hl, endsInError_of_logic_length_ne rfl ha hb hl,
      endsInError_of_logic_length_ne rfl ha hb hl⟩
  · exact ⟨F.dwarrAnd a b, F.dwarrOr a b, F.dwarrXor a b, completesWriting_of_logic rfl ha hb hl,
      completesWriting_of_logic rfl ha hb hl, completesWriting_of_logic rfl ha hb hl,
      F.length_dwarrAnd hl, F.length_dwarrOr hl, F.length_dwarrXor hl,
      fun i p q hp hq => ⟨F.getElem?_dwarrAnd hp hq, F.getElem?_dwarrOr hp hq, F.getElem?_dwarrXor hp hq⟩⟩

/-- Settles O31: the tag check, then the complement of each limb. -/
theorem notIsLimbWiseComplement : Obligations.NotIsLimbWiseComplement := by
  unfold Obligations.NotIsLimbWiseComplement
  refine ⟨rfl, fun s rd ra => ⟨fun ht => endsInError_of_tag_ne_DA .blu rfl ht, fun a ha => ?_⟩⟩
  exact ⟨F.dwarrNot a, completesWriting_of_da rfl ha rfl, F.length_dwarrNot a, fun i p => F.getElem?_dwarrNot⟩

/-! ### The operations on the integers (R116) -/

section Integers

variable {a b : Superword}

theorem val_dwarrAnd (h : a.length = b.length) : val (F.dwarrAnd a b) = val a &&& val b :=
  val_zipWith (p := and) rfl Nat.testBit_land BitVec.toNat_and h

theorem val_dwarrOr (h : a.length = b.length) : val (F.dwarrOr a b) = val a ||| val b :=
  val_zipWith (p := or) rfl Nat.testBit_lor BitVec.toNat_or h

theorem val_dwarrXor (h : a.length = b.length) : val (F.dwarrXor a b) = val a ^^^ val b :=
  val_zipWith (p := xor) rfl Nat.testBit_xor BitVec.toNat_xor h

/-- The complement is its own inverse, being subtraction from `2^W - 1`. -/
theorem dwarrNot_dwarrNot (a : Superword) : F.dwarrNot (F.dwarrNot a) = a := by
  have hw : width (F.dwarrNot a) = width a := by simp [width]
  have hlt := val_lt a
  refine eq_of_val_eq (by simp) ?_
  rw [val_dwarrNot, val_dwarrNot, hw]
  omega

/-- Exclusive or with the same operand twice cancels, as it does on the integers. -/
theorem dwarrXor_dwarrXor_cancel_right (h : a.length = b.length) : F.dwarrXor (F.dwarrXor a b) b = a := by
  have hx := F.length_dwarrXor h
  refine eq_of_val_eq ((F.length_dwarrXor (hx.trans h)).trans hx) ?_
  rw [val_dwarrXor (hx.trans h), val_dwarrXor h, Nat.xor_xor_cancel_right]

end Integers

/-- Settles O32: the functions on the integers, and the two laws that follow there. -/
theorem logicIsBitwiseOnIntegers : Obligations.LogicIsBitwiseOnIntegers := by
  unfold Obligations.LogicIsBitwiseOnIntegers
  intro a b h
  exact ⟨val_dwarrAnd h, val_dwarrOr h, val_dwarrXor h, val_dwarrNot a, dwarrNot_dwarrNot a,
    dwarrXor_dwarrXor_cancel_right h⟩

end Sys2Proof.Machine
end

section
/-! PROOFS. The family of 44_shift_rotate.md. The integers of some superwords; the 1-bit steps (R126 to R130);
how a shift and how a rotate ends, as its 1-bit step repeated (R131 to R137); then counts at or beyond the width
(R141), the laws (R143), the most negative count (R145), one limb (R144) and the corrected examples (R146). -/

namespace Sys2Proof.Machine

/-! ### Superwords of one limb, of no bits set and of all bits set, as integers (R7) -/

section Integers

theorem val_singleton (x : Limb) : val [x] = x.toNat := by simp [val_cons]

theorem sval_singleton (x : Limb) : sval [x] = x.toInt := by
  rw [BitVec.toInt_eq_msb_cond, ← val_singleton x]
  rfl

/-- A superword is the limbs of its signed integer modulo `2^W`. -/
theorem limbs_sval_emod (s : Superword) : limbs s.length (sval s % 2 ^ width s).toNat = s := by
  rw [sval_emod, Int.toNat_natCast, limbs_val]

theorem val_replicate_zero (k : Nat) : val (List.replicate k 0) = 0 := by
  induction k with
  | zero => rfl
  | succ k ih =>
    rw [List.replicate_succ, val_cons, ih]
    simp

theorem sval_replicate_zero (k : Nat) : sval (List.replicate k 0) = 0 := by
  cases k with
  | zero => rfl
  | succ k =>
    have h := val_replicate_zero (k + 1)
    rw [List.replicate_succ] at h ⊢
    rw [sval_cons, h]
    rfl

/-- All ones are the complement of all zeros, so their integer is `2^W - 1`. -/
theorem val_replicate_ones (k : Nat) : val (List.replicate k 0xFFFFFFFF) = 2 ^ (32 * k) - 1 := by
  have hnot : F.dwarrNot (List.replicate k 0) = List.replicate k 0xFFFFFFFF := List.map_replicate
  rw [← hnot, val_dwarrNot, val_replicate_zero]
  simp [width]

theorem sval_replicate_ones {k : Nat} (hk : k ≠ 0) : sval (List.replicate k 0xFFFFFFFF) = -1 := by
  obtain ⟨m, rfl⟩ := Nat.exists_eq_succ_of_ne_zero hk
  have htop : (0xFFFFFFFF : Limb).getLsbD 31 = true := by decide
  have hval := val_replicate_ones (m + 1)
  have hwidth : width (List.replicate (m + 1) 0xFFFFFFFF) = 32 * (m + 1) := by simp [width]
  rw [List.replicate_succ] at hval hwidth ⊢
  rw [sval_cons, if_pos htop, hval, hwidth, Nat.cast_sub Nat.one_le_two_pow]
  push_cast
  ring

end Integers

/-! ### The 1-bit steps (R126 to R130) -/

section OneBit

theorem bitLimb_bit31 (x : Limb) : bitLimb (x.getLsbD 31) = x >>> 31 := by
  apply BitVec.eq_of_toNat_eq
  rw [toNat_bitLimb, toNat_bit31, BitVec.toNat_ushiftRight, Nat.shiftRight_eq_div_pow]

theorem bitLimb_bit0_shift31 (x : Limb) : bitLimb (x.getLsbD 0) <<< 31 = x <<< 31 := by
  apply BitVec.eq_of_getLsbD_eq
  intro i hi
  rw [getLsbD_bitLimb_shift31, BitVec.getLsbD_shiftLeft]
  by_cases h : i = 31
  · simp [h]
  · have hlow : i < 31 := by omega
    simp [h, hlow]

theorem bitLimb_bit31_shift31 (x : Limb) : bitLimb (x.getLsbD 31) <<< 31 = x &&& 0x80000000 := by
  have hmask : (0x80000000 : Limb) = BitVec.twoPow 32 31 := rfl
  apply BitVec.eq_of_getLsbD_eq
  intro i hi
  rw [getLsbD_bitLimb_shift31, hmask, BitVec.getLsbD_and, BitVec.getLsbD_twoPow]
  by_cases h : i = 31
  · simp [h]
  · simp [h, Ne.symm h]

variable (s : Superword)

theorem getD_rshz1 {i : Nat} (h : i < s.length) :
    (rshz1 s).getD i 0 = s.getD i 0 >>> 1 ||| (if i = 0 then (0 : Limb) else s.getD (i - 1) 0 <<< 31) := by
  rw [rshz1, getD_rightScan _ _ h]
  split
  · rfl
  · rw [bitLimb_bit0_shift31]

theorem getD_rshs1 {i : Nat} (h : i < s.length) :
    (rshs1 s).getD i 0 =
      s.getD i 0 >>> 1 ||| (if i = 0 then s.getD 0 0 &&& 0x80000000 else s.getD (i - 1) 0 <<< 31) := by
  rw [F.rshs1_eq_rightScan, getD_rightScan _ _ h]
  split
  · rw [F.signBit, bitLimb_bit31_shift31]
  · rw [bitLimb_bit0_shift31]

end OneBit

/-- Settles O34: the limbs from the pre-shift neighbours, then the integers. -/
theorem oneBitShiftsCarryAcrossLimbs : Obligations.OneBitShiftsCarryAcrossLimbs := by
  unfold Obligations.OneBitShiftsCarryAcrossLimbs
  refine fun s => ⟨length_lsh1 s, length_rshz1 s, length_rshs1 s, fun i hi => ?_,
    val_lsh1 s, val_rshz1 s, sval_rshs1 s⟩
  exact ⟨by rw [getD_lsh1, bitLimb_bit31], getD_rshz1 s hi, getD_rshs1 s hi⟩

namespace F

section Rotates

variable (s : Superword) (m n : Nat)

theorem lrot_lrot : lrot (lrot s m) n = lrot s (m + n) := by
  simp only [lrot_eq_repeat, repeatStep_add]

theorem lrot_rrot : lrot (rrot s n) n = s := by
  rw [lrot_eq_repeat, rrot_eq_repeat, repeat_lrot1_repeat_rrot1]

theorem rrot_mod : rrot s (n % width s) = rrot s n := by
  rw [rrot, Nat.mod_mod, rrot]

/-- A full turn is the identity, in either direction (R143). -/
theorem lrot_width : lrot s (width s) = s := lrot_of_mod_eq_zero (Nat.mod_self _)

theorem rrot_width : rrot s (width s) = s := by
  rw [rrot, lrot_mod, Nat.mod_self, Nat.sub_zero, lrot_width]

/-- Turning right undoes turning left: it goes on to the left for the rest of a full turn. -/
theorem rrot_lrot : rrot (lrot s n) n = s := by
  cases s with
  | nil => rfl
  | cons x rest =>
    have hw : width (lrot (x :: rest) n) = width (x :: rest) := width_eq_of_length (length_lrot _ n)
    have hk : n % width (x :: rest) ≤ width (x :: rest) := (Nat.mod_lt n (by simp)).le
    rw [rrot, lrot_mod, hw, lrot_lrot]
    apply lrot_of_mod_eq_zero
    rw [← Nat.mod_add_mod, Nat.add_sub_cancel' hk, Nat.mod_self]

end Rotates

end F

theorem val_lrot1 (s : Superword) : val (lrot1 s) = 2 * val s % 2 ^ width s + val s / 2 ^ (width s - 1) := by
  cases s with
  | nil => rfl
  | cons x rest => exact val_lrot1_cons x rest

theorem val_rrot1 {s : Superword} (h : s ≠ []) :
    val (rrot1 s) = val s / 2 + val s % 2 * 2 ^ (width s - 1) := by
  cases s with
  | nil => exact absurd rfl h
  | cons x rest => exact val_rrot1_cons x rest

theorem rrot1_lrot1 (s : Superword) : rrot1 (lrot1 s) = s := by
  have h := F.rrot_lrot s 1
  rwa [F.rrot_eq_repeat, F.lrot_eq_repeat] at h

/-- Settles O35: the integers of the 1-bit rotates, each undoing the other. -/
theorem oneBitRotatesReinsertTheBit : Obligations.OneBitRotatesReinsertTheBit := by
  unfold Obligations.OneBitRotatesReinsertTheBit
  exact fun s => ⟨length_lrot1 s, length_rrot1 s, val_lrot1 s, val_rrot1, rrot1_lrot1 s, F.lrot1_rrot1 s⟩

/-! ### How the commands end (R131 to R137) -/

section Commands

variable {i : Instr} {s : State} {rd ra : SlotIx} {n : Int} {a v : Superword} {f g : Superword → Nat → Superword}
  {step : Superword → Superword}

/-- A shift that takes a negative count raises CountError (R137). -/
theorem endsInError_of_shift
    (h : exec i s = finish .sre (withDA (s.slot ra) fun a => checkCount n fun n => .write rd (.da (f a n))) s)
    (ha : s.slot ra = .da a) (hn : n < 0) : EndsInError i s 4 4 := by
  rw [ha, withDA_da, checkCount_bad hn] at h
  exact endsInError_of_finish h

/-- A shift whose closed form `f` is `step` repeated writes what `step`, as often as the count says, gives. -/
theorem completesWriting_of_shift
    (h : exec i s = finish .sre (withDA (s.slot ra) fun a => checkCount n fun n => .write rd (.da (f a n))) s)
    (hf : ∀ a n, f a n = repeatStep step n a) (ha : s.slot ra = .da a) (hn : 0 ≤ n)
    (hv : repeatStep step n.toNat a = v) : CompletesWriting i s rd (.da v) := by
  rw [← hv, ← hf]
  exact completesWriting_of_da h ha (checkCount_ok hn _)

/-- A rotate turns by `f` for a count that is not negative (R135, R136). -/
theorem completesWriting_of_rotate
    (h : exec i s = finish .sre (withDA (s.slot ra) fun a =>
      .write rd (.da (if 0 ≤ n then f a n.toNat else g a (-n).toNat))) s)
    (hf : ∀ a n, f a n = repeatStep step n a) (ha : s.slot ra = .da a) (hn : 0 ≤ n)
    (hv : repeatStep step n.toNat a = v) : CompletesWriting i s rd (.da v) := by
  rw [← hv, ← hf]
  exact completesWriting_of_da h ha (by rw [if_pos hn])

/-- A rotate turns the other way, by `g`, for a negative count. -/
theorem completesWriting_of_rotate_neg
    (h : exec i s = finish .sre (withDA (s.slot ra) fun a =>
      .write rd (.da (if 0 ≤ n then f a n.toNat else g a (-n).toNat))) s)
    (hg : ∀ a n, g a n = repeatStep step n a) (ha : s.slot ra = .da a) (hn : n < 0)
    (hv : repeatStep step (-n).toNat a = v) : CompletesWriting i s rd (.da v) := by
  rw [← hv, ← hg]
  exact completesWriting_of_da h ha (by rw [if_neg (not_le.mpr hn)])

end Commands

/-! ### The repeated steps as limbs of an integer (R132 to R134) -/

section Limbs

variable (a : Superword) (n : Nat)

theorem repeat_lsh1_eq_limbs : repeatStep lsh1 n a = limbs a.length (val a * 2 ^ n % 2 ^ width a) :=
  eq_limbs (length_repeatStep length_lsh1 n a) (by rw [val_repeat_lsh1, width, Nat.mod_mod])

theorem repeat_rshz1_eq_limbs : repeatStep rshz1 n a = limbs a.length (val a / 2 ^ n) := by
  rw [← val_repeat_rshz1, ← length_repeatStep length_rshz1 n a, limbs_val]

theorem repeat_rshs1_eq_limbs : repeatStep rshs1 n a = limbs a.length ((sval a / 2 ^ n) % 2 ^ width a).toNat := by
  have hl := length_repeatStep length_rshs1 n a
  rw [← sval_repeat_rshs1, ← F.width_eq_of_length hl, ← hl, limbs_sval_emod]

end Limbs

/-- Settles O36: the tag, then the count, then the closed form, which is the repeated step. -/
theorem shiftsRepeatTheOneBitStep : Obligations.ShiftsRepeatTheOneBitStep := by
  unfold Obligations.ShiftsRepeatTheOneBitStep
  refine ⟨rfl, rfl, rfl, fun s rd ra n => ⟨fun ht => ?_, fun a ha => ⟨fun hn => ?_, fun hn => ?_⟩⟩⟩
  · exact ⟨endsInError_of_tag_ne_DA .sre rfl ht, endsInError_of_tag_ne_DA .sre rfl ht,
      endsInError_of_tag_ne_DA .sre rfl ht⟩
  · exact ⟨endsInError_of_shift rfl ha hn, endsInError_of_shift rfl ha hn, endsInError_of_shift rfl ha hn⟩
  · exact ⟨completesWriting_of_shift rfl F.lsh_eq_repeat ha hn rfl,
      completesWriting_of_shift rfl F.rshz_eq_repeat ha hn rfl,
      completesWriting_of_shift rfl F.rshs_eq_repeat ha hn rfl,
      repeat_lsh1_eq_limbs a _, repeat_rshz1_eq_limbs a _, repeat_rshs1_eq_limbs a _⟩

/-- Settles O37: the tag, then the closed form of the direction the sign of the count gives. -/
theorem rotatesRepeatTheOneBitStep : Obligations.RotatesRepeatTheOneBitStep := by
  unfold Obligations.RotatesRepeatTheOneBitStep
  refine ⟨rfl, rfl, fun s rd ra n => ⟨fun ht => ?_, fun a ha => ⟨fun hn => ?_, fun hn => ?_⟩⟩⟩
  · exact ⟨endsInError_of_tag_ne_DA .sre rfl ht, endsInError_of_tag_ne_DA .sre rfl ht⟩
  · exact ⟨completesWriting_of_rotate rfl F.lrot_eq_repeat ha hn rfl,
      completesWriting_of_rotate rfl F.rrot_eq_repeat ha hn rfl⟩
  · exact ⟨completesWriting_of_rotate_neg rfl F.rrot_eq_repeat ha hn rfl,
      completesWriting_of_rotate_neg rfl F.lrot_eq_repeat ha hn rfl⟩

/-! ### Counts at or beyond the width (R141) -/

section BeyondWidth

variable {a : Superword} {n : Nat}

theorem repeat_lsh1_of_width_le (h : width a ≤ n) : repeatStep lsh1 n a = List.replicate a.length 0 := by
  have hdvd : 2 ^ width a ∣ val a * 2 ^ n := (Nat.pow_dvd_pow 2 h).mul_left _
  refine eq_of_val_eq (by simp [length_repeatStep]) ?_
  rw [val_repeat_lsh1, val_replicate_zero, Nat.mod_eq_zero_of_dvd hdvd]

theorem repeat_rshz1_of_width_le (h : width a ≤ n) : repeatStep rshz1 n a = List.replicate a.length 0 := by
  have hlt : val a < 2 ^ n := (val_lt a).trans_le (Nat.pow_le_pow_right (by decide) h)
  refine eq_of_val_eq (by simp [length_repeatStep]) ?_
  rw [val_repeat_rshz1, val_replicate_zero, Nat.div_eq_of_lt hlt]

/-- The signed integer is at least `-2^n` and below `2^n`, so its quotient is `-1` or 0. -/
theorem repeat_rshs1_of_width_le (h : width a - 1 ≤ n) :
    repeatStep rshs1 n a = List.replicate a.length (if sval a < 0 then 0xFFFFFFFF else 0) := by
  by_cases ha : a = []
  · subst ha; exact repeatStep_nil rfl n
  · have hpow : (2 : Int) ^ (width a - 1) ≤ 2 ^ n := pow_le_pow_right₀ (by decide) h
    obtain ⟨hlo, hhi⟩ := sval_bounds a ha
    refine eq_of_sval_eq (by simp [length_repeatStep]) ?_
    rw [sval_repeat_rshs1]
    split
    · rw [sval_replicate_ones (by simpa using ha)]
      exact Int.ediv_eq_neg_one_of_neg_of_le ‹_› (by omega)
    · rw [sval_replicate_zero]
      exact Int.ediv_eq_zero_of_lt (by omega) (by omega)

theorem repeat_lrot1_mod : repeatStep lrot1 n a = repeatStep lrot1 (n % width a) a := by
  rw [← F.lrot_eq_repeat, ← F.lrot_eq_repeat, F.lrot_mod]

theorem repeat_rrot1_mod : repeatStep rrot1 n a = repeatStep rrot1 (n % width a) a := by
  rw [← F.rrot_eq_repeat, ← F.rrot_eq_repeat, F.rrot_mod]

end BeyondWidth

/-- Settles O38: the integers of the repeated shifts, and the rotates reduced modulo the width. -/
theorem countsAtOrBeyondTheWidth : Obligations.CountsAtOrBeyondTheWidth := by
  unfold Obligations.CountsAtOrBeyondTheWidth
  intro s rd ra n a ha
  have hn : (0 : Int) ≤ n := Int.natCast_nonneg n
  exact ⟨fun h => ⟨completesWriting_of_shift rfl F.lsh_eq_repeat ha hn (repeat_lsh1_of_width_le h),
      completesWriting_of_shift rfl F.rshz_eq_repeat ha hn (repeat_rshz1_of_width_le h)⟩,
    fun h => completesWriting_of_shift rfl F.rshs_eq_repeat ha hn (repeat_rshs1_of_width_le h),
    fun _ => ⟨completesWriting_of_rotate rfl F.lrot_eq_repeat ha hn repeat_lrot1_mod,
      completesWriting_of_rotate rfl F.rrot_eq_repeat ha hn repeat_rrot1_mod⟩⟩

/-! ### Laws, and the most negative count (R143, R145) -/

/-- Settles O39: each shift is its 1-bit step repeated, so counts add; the rotates turn back and all the way. -/
theorem shiftAndRotateLaws : Obligations.ShiftAndRotateLaws := by
  unfold Obligations.ShiftAndRotateLaws
  intro x a b
  refine ⟨F.lsh_zero x, F.rsh_zero _ x, F.rsh_zero _ x, ?_, ?_, ?_, F.lrot_width x, F.rrot_width x,
    F.lrot_rrot x a, F.lrot_lrot x a b⟩
  · simp only [F.lsh_eq_repeat, repeatStep_add]
  · simp only [F.rshz_eq_repeat, repeatStep_add]
  · simp only [F.rshs_eq_repeat, repeatStep_add]

/-- Settles O40: the clauses for a negative count at `-2^31`, whose absolute value is `2^31`. -/
theorem mostNegativeCount : Obligations.MostNegativeCount := by
  unfold Obligations.MostNegativeCount
  intro s rd ra a ha
  have hn : (-2147483648 : Int) < 0 := by decide
  have habs : (- (-2147483648 : Int)).toNat = 2 ^ 31 := by decide
  have hL := completesWriting_of_rotate_neg (i := .dwarrLRotate rd ra _) rfl F.rrot_eq_repeat ha hn rfl
  have hR := completesWriting_of_rotate_neg (i := .dwarrRRotate rd ra _) rfl F.lrot_eq_repeat ha hn rfl
  rw [habs] at hL hR
  exact ⟨hL, hR, repeat_rrot1_mod ▸ hL, repeat_lrot1_mod ▸ hR, endsInError_of_shift rfl ha hn,
    endsInError_of_shift rfl ha hn, endsInError_of_shift rfl ha hn⟩

/-! ### One limb (R144) -/

section OneLimb

variable (x : Limb) (n : Nat)

theorem repeat_lsh1_singleton : repeatStep lsh1 n [x] = [x <<< n] := by
  refine eq_of_val_eq (by simp [length_repeatStep]) ?_
  rw [val_repeat_lsh1, val_singleton, val_singleton, BitVec.toNat_shiftLeft, Nat.shiftLeft_eq]
  rfl

theorem repeat_rshz1_singleton : repeatStep rshz1 n [x] = [x >>> n] := by
  refine eq_of_val_eq (by simp [length_repeatStep]) ?_
  rw [val_repeat_rshz1, val_singleton, val_singleton, BitVec.toNat_ushiftRight, Nat.shiftRight_eq_div_pow]

theorem repeat_rshs1_singleton : repeatStep rshs1 n [x] = [x.sshiftRight n] := by
  refine eq_of_sval_eq (by simp [length_repeatStep]) ?_
  rw [sval_repeat_rshs1, sval_singleton, sval_singleton, BitVec.toInt_sshiftRight, Int.shiftRight_eq_div_pow]
  push_cast
  rfl

theorem lrot_singleton : F.lrot [x] n = [x.rotateLeft n] := by
  refine eq_of_val_eq (by simp) ?_
  have hdef : F.lrot [x] n = limbs 1 ((val [x] <<< (n % 32) ||| val [x] >>> (32 - n % 32)) % 2 ^ 32) := rfl
  have hlow : x.toNat >>> (32 - n % 32) < 2 ^ 32 := (Nat.shiftRight_le _ _).trans_lt x.isLt
  rw [hdef, val_limbs, Nat.mod_mod, val_singleton, val_singleton, BitVec.toNat_rotateLeft, Nat.or_mod_two_pow,
    Nat.mod_eq_of_lt hlow]

/-- In 32 bits, turning right by `n` is turning left by what is missing to a full turn. -/
theorem rotateLeft_complement : x.rotateLeft ((32 - n % 32) % 32) = x.rotateRight n := by
  rw [BitVec.rotateLeft_def, BitVec.rotateRight_def, Nat.mod_mod]
  by_cases h : n % 32 = 0
  · simp [h, BitVec.ushiftRight_eq_zero]
  · have hk : (32 - n % 32) % 32 = 32 - n % 32 := Nat.mod_eq_of_lt (by omega)
    have hk' : 32 - (32 - n % 32) = n % 32 := by omega
    rw [hk, hk', BitVec.or_comm]

theorem repeat_lrot1_singleton : repeatStep lrot1 n [x] = [x.rotateLeft n] := by
  rw [← F.lrot_eq_repeat, lrot_singleton]

theorem repeat_rrot1_singleton : repeatStep rrot1 n [x] = [x.rotateRight n] := by
  rw [← F.rrot_eq_repeat, ← rotateLeft_complement]
  exact lrot_singleton x _

end OneLimb

/-- Settles O41: the repeated steps on one limb, and on none. -/
theorem smallSuperwords : Obligations.SmallSuperwords := by
  unfold Obligations.SmallSuperwords
  intro s rd ra n
  have hn : (0 : Int) ≤ n := Int.natCast_nonneg n
  refine ⟨fun x ha => ?_, fun ha => ?_⟩
  · exact ⟨completesWriting_of_shift rfl F.lsh_eq_repeat ha hn (repeat_lsh1_singleton x n),
      completesWriting_of_shift rfl F.rshz_eq_repeat ha hn (repeat_rshz1_singleton x n),
      completesWriting_of_shift rfl F.rshs_eq_repeat ha hn (repeat_rshs1_singleton x n),
      completesWriting_of_rotate rfl F.lrot_eq_repeat ha hn (repeat_lrot1_singleton x n),
      completesWriting_of_rotate rfl F.rrot_eq_repeat ha hn (repeat_rrot1_singleton x n)⟩
  · exact ⟨completesWriting_of_shift rfl F.lsh_eq_repeat ha hn (repeatStep_nil rfl n),
      completesWriting_of_shift rfl F.rshz_eq_repeat ha hn (repeatStep_nil rfl n),
      completesWriting_of_shift rfl F.rshs_eq_repeat ha hn (repeatStep_nil rfl n),
      completesWriting_of_rotate rfl F.lrot_eq_repeat ha hn (repeatStep_nil rfl n),
      completesWriting_of_rotate rfl F.rrot_eq_repeat ha hn (repeatStep_nil rfl n)⟩

/-- Settles O42: the closed left shift, evaluated on the example's limbs. -/
theorem carryChainExamplesAsCorrected : Obligations.CarryChainExamplesAsCorrected := by
  unfold Obligations.CarryChainExamplesAsCorrected
  intro s ha
  exact ⟨completesWriting_of_da rfl ha (by decide), completesWriting_of_da rfl ha (by decide),
    completesWriting_of_da rfl ha (by decide), completesWriting_of_da rfl ha (by decide),
    completesWriting_of_da rfl ha (by decide)⟩

end Sys2Proof.Machine
end

section
/-! PROOFS. The family of 60_exceptions.md. A command succeeds or raises (`exec_succeeds_or_raises`), and so does
the serving of a command word, legal or not (`step_hcmd`, `WordEnds.succeeds_or_raises`); what errors there are
(R168), where they are delivered (R170) and that they are precise (R171) follow. -/

namespace Sys2Proof.Machine

variable {i : Instr} {s t : State} {w : BitVec 64} {c : Component} {e : Ending} {k : ErrorKind}

/-! ### The ending of one command (R57, R168, R171) -/

/-- Either `KIND` and `COMP` become 0, or an error of the command's row is raised for the command's unit, and the
raise is all that happens to the state. -/
theorem exec_succeeds_or_raises (h : exec i s = .next t) :
    t.kind = 0 ∧ t.comp = 0 ∨
      ∃ k c, k.code ∈ mayRaise i ∧ c.code = (encode i).extractLsb' 28 4 ∧ t = s.conclude c (.raise k) := by
  obtain ⟨c, e, hc, ha, rfl⟩ := exec_cases h
  cases e with
  | raise k => exact .inr ⟨k, c, ha, hc.trans (unit_of_opcode i), rfl⟩
  | write | setT => exact .inl (by simp)

/-- Settles O43: the error a command raises is one of its row. -/
theorem commandRaisesOnlyItsKinds : Obligations.CommandRaisesOnlyItsKinds := by
  unfold Obligations.CommandRaisesOnlyItsKinds
  intro i s t h
  rcases exec_succeeds_or_raises h with ⟨hk, -⟩ | ⟨k, c, hk, -, rfl⟩
  · exact .inl hk
  · exact .inr (by simpa using hk)

/-- Settles O44: where `KIND` is not 0 the command raised, and a raise writes `KIND` and `COMP` alone. -/
theorem errorsArePrecise : Obligations.ErrorsArePrecise := by
  unfold Obligations.ErrorsArePrecise
  intro i s t h hne
  rcases exec_succeeds_or_raises h with ⟨hk, -⟩ | ⟨k, c, -, hc, rfl⟩
  · exact absurd hk hne
  · exact ⟨rfl, by simp, by simp, by simpa using hc⟩

/-! ### The ending of one command word (R41, R166, R170) -/

/-- Serving a command word ends in one of the word's endings and replies the `STATUS` that this leaves. -/
theorem step_hcmd {rest : List Transaction} (hp : s.pending = .hcmd w :: rest) :
    ∃ c e, WordEnds w c e ∧
      step s = .next ((({ s with pending := rest } : State).conclude c e).reply
        (.status (({ s with pending := rest } : State).conclude c e).statusWord)) := by
  rcases serve_hcmd_cases (step_cons hp).symm with ⟨i, u, hd, hu, hs⟩ | ⟨x, hd, hs⟩
  · obtain ⟨c, e, hc, ha, rfl⟩ := exec_cases hu
    exact ⟨c, e, .legal hd hc ha, hs⟩
  · exact ⟨.shell, .raise .illegalCommand, .illegal hd, hs⟩

/-- The rows of R168 list the five kinds of the units, never IllegalCommand. -/
theorem mayRaise_subset_unitKinds (i : Instr) : mayRaise i ⊆ [1, 2, 3, 4, 5] := by
  cases i <;> simp [mayRaise]

/-- The error a command word raises: one of the five kinds of the units, with the unit its bits 31:28 name (R63),
or IllegalCommand with `COMP` 0. -/
theorem WordEnds.codes_of_raise (hw : WordEnds w c (.raise k)) :
    k.code ∈ [1, 2, 3, 4, 5] ∧ c.code = w.extractLsb' 28 4 ∨ k.code = 6 ∧ c.code = 0 := by
  cases hw with
  | @legal i _ _ hd hc ha =>
    exact .inl ⟨mayRaise_subset_unitKinds i ha, by rw [hc, unit_of_opcode, encode_of_decode hd]⟩
  | illegal hd => exact .inr ⟨rfl, rfl⟩

/-- IllegalCommand is not in R168's table, so it is left by the words that do not decode and by no other. -/
theorem WordEnds.kind_eq_six_iff (hw : WordEnds w c e) (s : State) :
    (s.conclude c e).kind = 6 ↔ ∃ x, decode w = .error x := by
  cases hw with
  | illegal hd => simp [hd, ErrorKind.code]
  | @legal i _ _ hd hc ha =>
    have h6 : 6#4 ∉ mayRaise i := fun h => absurd (mayRaise_subset_unitKinds i h) (by decide)
    cases e with
    | raise k =>
      have hk : k.code ≠ 6#4 := fun h => h6 (h ▸ ha)
      simp [hd, hk]
    | write | setT => simp [hd]

/-- A command word succeeds, or raises and then changes neither a slot nor `STATUS.T`. -/
theorem WordEnds.succeeds_or_raises (hw : WordEnds w c e) (s : State) :
    (s.conclude c e).kind = 0 ∧ (s.conclude c e).comp = 0 ∨
      ((s.conclude c e).kind ∈ [1, 2, 3, 4, 5] ∧ (s.conclude c e).comp = w.extractLsb' 28 4 ∨
        (s.conclude c e).kind = 6 ∧ (s.conclude c e).comp = 0) ∧
        (∀ j, (s.conclude c e).slot j = s.slot j) ∧ (s.conclude c e).flagT = s.flagT := by
  cases e with
  | raise k => exact .inr ⟨by simpa using hw.codes_of_raise, fun _ => rfl, by simp⟩
  | write | setT => exact .inl (by simp)

/-- Settles O7: the step takes the word off, ends as the word may, and replies the `STATUS` left. -/
theorem errorIsDeliveredInStatusAlone : Obligations.ErrorIsDeliveredInStatusAlone := by
  unfold Obligations.ErrorIsDeliveredInStatusAlone
  intro s w rest hp
  obtain ⟨c, e, hw, hs⟩ := step_hcmd hp
  exact ⟨_, hs, by simp, by simp, by simp, hw.kind_eq_six_iff _, hw.succeeds_or_raises _⟩

end Sys2Proof.Machine
end

section
/-! PROOFS. The family of 70_reset_and_hazards.md: the engine between transactions (R192). -/

namespace Sys2Proof.Machine

/-- Settles O14: with nothing pending a step serves no transaction, whatever the slots' capacity. -/
theorem idleEngineChangesNothing : Obligations.IdleEngineChangesNothing := by
  unfold Obligations.IdleEngineChangesNothing
  intro s hidle
  exact stepWith_idle (cap := Config.slotBytes) hidle

end Sys2Proof.Machine
end
